-- ==== Sys2Proof/Word.lean ====
section
/-! DEFINITION. Sys2Proof/Word.lean: the value types of the GSU core (00_scope.md R5, R6; 10_state.md R10, R25). -/

namespace Sys2Proof

/-- The addressable unit, and the width of the eight control registers (R5, R20). -/
abbrev Byte := BitVec 8

/-- The width of R0..R15, SFR and the cache base (R10, R15, R20). -/
abbrev Word := BitVec 16

/-- A chip-local address: bank in bits 23:16, offset in bits 15:0 (R41). -/
abbrev BusAddr := BitVec 24

/-- The decode key `alt2 ++ alt1 ++ op` (R71). -/
abbrev Key := BitVec 10

/-- The low nibble of an opcode byte (R72). -/
abbrev Nibble := BitVec 4

/-- A general register number 0..15; also the content of a latch, "an index 0-15" (R10, R25). -/
abbrev RegIdx := Fin 16

end Sys2Proof
end

