-- ==== Sys2Proof/Syntax.lean ====
section
/-! DEFINITION. Sys2Proof/Syntax.lean: the seventeen instructions, one constructor per row of spec/opcode_table.json (30_encoding.md R75). -/

namespace Sys2Proof

/-- One instruction with the operands its encoding carries (R72, R74). The implicit operands, the latch
snapshots, are machine state and not part of the instruction (R74 d). -/
inductive Instr where
  /-- STOP (R110). -/
  | stop
  /-- NOP (R111). -/
  | nop
  /-- TO Rn (R120). -/
  | toR (n : RegIdx)
  /-- WITH Rn (R121). -/
  | withR (n : RegIdx)
  /-- ALT1 (R123). -/
  | alt1
  /-- ALT2 (R124). -/
  | alt2
  /-- ALT3 (R125). -/
  | alt3
  /-- NOT (R131). -/
  | notR
  /-- MERGE (R132). -/
  | merge
  /-- AND Rn, n in 1..15 (R133). -/
  | andR (n : RegIdx)
  /-- AND #n, n in 1..15 (R134). -/
  | andI (n : Nibble)
  /-- SEX (R135). -/
  | sex
  /-- FROM Rn (R122). -/
  | fromR (n : RegIdx)
  /-- HIB (R136). -/
  | hib
  /-- XOR Rn, n in 1..15 (R137). -/
  | xorR (n : RegIdx)
  /-- XOR #n, n in 1..15 (R138). -/
  | xorI (n : Nibble)
  /-- IWT Rn, #imm (R150). -/
  | iwt (n : RegIdx) (imm : Word)
  deriving DecidableEq, Repr

end Sys2Proof
end

