-- ==== Sys2Proof/WellFormed.lean ====
section
/-! DEFINITION. Sys2Proof/WellFormed.lean: which instruction terms an encoding exists for (30_encoding.md R73, R74, R76). -/

namespace Sys2Proof

/-- AND and XOR have no encoding for operand 0: byte 0x70 is MERGE and 0xC0 is HIB (R74, R76).
Every other operand value is encodable. The meanings are defined for 0 too, and no step runs them so (log 15). -/
def Instr.wf : Instr → Bool
  | .stop => true
  | .nop => true
  | .toR _ => true
  | .withR _ => true
  | .alt1 => true
  | .alt2 => true
  | .alt3 => true
  | .notR => true
  | .merge => true
  | .andR n => n != 0
  | .andI n => n != 0
  | .sex => true
  | .fromR _ => true
  | .hib => true
  | .xorR n => n != 0
  | .xorI n => n != 0
  | .iwt _ _ => true

end Sys2Proof
end

