-- ==== Sys2Proof/Decode.lean ====
section
/-! DEFINITION. Sys2Proof/Decode.lean: the decoder over the 10-bit key, the encoder, and the host's table word (30_encoding.md R70 to R81). -/

namespace Sys2Proof

/-- The decode key `K = alt2 ++ alt1 ++ op` (R71). -/
def mkKey (alt1 alt2 : Bool) (op : Byte) : Key :=
  BitVec.ofBool alt2 ++ BitVec.ofBool alt1 ++ op

/-- `n = op[3:0]`, the low nibble (R72), read from the key. -/
def keyNibble (k : Key) : Nibble := k.extractLsb' 0 4

/-- A nibble as a register number (R74 c). -/
def nibbleReg (n : Nibble) : RegIdx := n.toFin

/-- One row of the opcode map (R75): it selects `k` iff `k & mask = pat`, and, where `nonzero` is set,
additionally `n` is not 0. `make` builds the instruction from `n` and the immediate word. -/
structure OpcodeRow where
  mnemonic : String
  mask : Key
  pat : Key
  nonzero : Bool
  make : Nibble → Word → Instr

/-- Does the row select the key? (R75) -/
def OpcodeRow.selects (row : OpcodeRow) (k : Key) : Bool :=
  (k &&& row.mask) == row.pat && (!row.nonzero || keyNibble k != 0)

/-- The opcode map in the source's order, which is that of spec/opcode_table.json (R75).
The thirteen rows without an ALT condition have mask bits 9:8 clear: log 5 (R77, the spec's decision D3). -/
def opcodeTable : List OpcodeRow :=
  [ ⟨"STOP",   0x0FF, 0x000, false, fun _ _ => .stop⟩,
    ⟨"NOP",    0x0FF, 0x001, false, fun _ _ => .nop⟩,
    ⟨"TO",     0x0F0, 0x010, false, fun n _ => .toR (nibbleReg n)⟩,
    ⟨"WITH",   0x0F0, 0x020, false, fun n _ => .withR (nibbleReg n)⟩,
    ⟨"ALT1",   0x0FF, 0x03D, false, fun _ _ => .alt1⟩,
    ⟨"ALT2",   0x0FF, 0x03E, false, fun _ _ => .alt2⟩,
    ⟨"ALT3",   0x0FF, 0x03F, false, fun _ _ => .alt3⟩,
    ⟨"NOT",    0x0FF, 0x04F, false, fun _ _ => .notR⟩,
    ⟨"MERGE",  0x0FF, 0x070, false, fun _ _ => .merge⟩ ] ++
  [ ⟨"AND_Rn", 0x3F0, 0x070, true,  fun n _ => .andR (nibbleReg n)⟩,
    ⟨"AND__n", 0x3F0, 0x270, true,  fun n _ => .andI n⟩,
    ⟨"SEX",    0x0FF, 0x095, false, fun _ _ => .sex⟩,
    ⟨"FROM",   0x0F0, 0x0B0, false, fun n _ => .fromR (nibbleReg n)⟩,
    ⟨"HIB",    0x0FF, 0x0C0, false, fun _ _ => .hib⟩,
    ⟨"XOR_Rn", 0x3F0, 0x1C0, true,  fun n _ => .xorR (nibbleReg n)⟩,
    ⟨"XOR__n", 0x3F0, 0x3C0, true,  fun n _ => .xorI n⟩,
    ⟨"IWT",    0x0F0, 0x0F0, false, fun n imm => .iwt (nibbleReg n) imm⟩ ]

/-- The row a key selects; R76: the rows are pairwise disjoint, so the first is the only one. -/
def keyRow (k : Key) : Option OpcodeRow := opcodeTable.find? (·.selects k)

/-- The instruction a key selects, its 16-bit immediate (IWT only) given (R71, R74, R75). -/
def decodeKey (k : Key) (imm : Word) : Option Instr :=
  (keyRow k).map fun row => row.make (keyNibble k) imm

/-- `op[7:4] = 0xF`: two immediate bytes follow the opcode byte, whatever the ALT bits are (R79). -/
def hasImmediate (op : Byte) : Bool := op.extractLsb' 4 4 == 0xF#4

/-- A 16-bit datum from its two bytes, low byte first in memory (R49, R74 b). -/
def wordOfBytes (lo hi : Byte) : Word := hi ++ lo

/-- Why the decoder refuses. -/
inductive DecodeError where
  /-- The key selects no row (R80); it carries what the fault of R162 carries. -/
  | illegal (op : Byte) (alt1 alt2 : Bool)
  /-- The bytes end before the instruction does (no opcode byte, or IWT without its two bytes).
  The engine's fetch never passes such bytes. -/
  | truncated
  deriving DecidableEq, Repr

/-- The decoder's answer from the instruction the key selects, if any, and the bytes after the instruction (R75, R80). -/
def decodeAnswer (alt1 alt2 : Bool) (op : Byte) (rest : List Byte) : Option Instr → Except DecodeError (Instr × List Byte)
  | some i => .ok (i, rest)
  | none => .error (.illegal op alt1 alt2)

/-- Decode the bytes of one instruction under the ALT snapshots: the instruction and the bytes after it (R70, R71, R79). -/
def decode (alt1 alt2 : Bool) : List Byte → Except DecodeError (Instr × List Byte)
  | [] => .error .truncated
  | op :: rest =>
    if hasImmediate op then
      match rest with
      | lo :: hi :: rest' => decodeAnswer alt1 alt2 op rest' (decodeKey (mkKey alt1 alt2 op) (wordOfBytes lo hi))
      | _ => .error .truncated
    else decodeAnswer alt1 alt2 op rest (decodeKey (mkKey alt1 alt2 op) 0#16)

/-- A register number as the nibble that encodes it (R72). -/
def regNibble (r : RegIdx) : Nibble := BitVec.ofFin r

/-- The opcode byte of an instruction (R75, R83). -/
def Instr.opcode : Instr → Byte
  | .stop => 0x00#8
  | .nop => 0x01#8
  | .toR n => 0x1#4 ++ regNibble n
  | .withR n => 0x2#4 ++ regNibble n
  | .alt1 => 0x3D#8
  | .alt2 => 0x3E#8
  | .alt3 => 0x3F#8
  | .notR => 0x4F#8
  | .merge => 0x70#8
  | .andR n => 0x7#4 ++ regNibble n
  | .andI n => 0x7#4 ++ n
  | .sex => 0x95#8
  | .fromR n => 0xB#4 ++ regNibble n
  | .hib => 0xC0#8
  | .xorR n => 0xC#4 ++ regNibble n
  | .xorI n => 0xC#4 ++ n
  | .iwt n _ => 0xF#4 ++ regNibble n

/-- The ALT snapshots an instruction's row admits: any for thirteen rows, one pair for AND and XOR (R73, R75). -/
def Instr.admitsAlt (i : Instr) (alt1 alt2 : Bool) : Bool :=
  match i with
  | .stop => true
  | .nop => true
  | .toR _ => true
  | .withR _ => true
  | .alt1 => true
  | .alt2 => true
  | .alt3 => true
  | .notR => true
  | .merge => true
  | .andR _ => !alt1 && !alt2
  | .andI _ => !alt1 && alt2
  | .sex => true
  | .fromR _ => true
  | .hib => true
  | .xorR _ => alt1 && !alt2
  | .xorI _ => alt1 && alt2
  | .iwt _ _ => true

/-- The bytes after the opcode byte: the immediate, low byte first, for IWT; none otherwise (R70, R73). -/
def Instr.immediateBytes : Instr → List Byte
  | .stop => []
  | .nop => []
  | .toR _ => []
  | .withR _ => []
  | .alt1 => []
  | .alt2 => []
  | .alt3 => []
  | .notR => []
  | .merge => []
  | .andR _ => []
  | .andI _ => []
  | .sex => []
  | .fromR _ => []
  | .hib => []
  | .xorR _ => []
  | .xorI _ => []
  | .iwt _ imm => [imm.extractLsb' 0 8, imm.extractLsb' 8 8]

/-- The encoder: the bytes of an instruction in memory order (R70, R73, R83). The ALT context its key
needs is not in these bytes: `Instr.admitsAlt` says it (R78). -/
def encode (i : Instr) : List Byte := i.opcode :: i.immediateBytes

/-- Byte `j` of a table word. -/
def tableByte (w j : Nat) : Byte := BitVec.ofNat 8 (w >>> (8 * j))

/-- The ALT1 snapshot a table word carries: bit 8 of K, where spec/opcode_table.json puts it (R71; log 2). -/
def tableAlt1 (w : Nat) : Bool := w.testBit 8

/-- The ALT2 snapshot a table word carries: bit 9 of K (R71; log 2). -/
def tableAlt2 (w : Nat) : Bool := w.testBit 9

/-- The instruction bytes a table word stands for (log 2). The table numbers the bits of the key K, so
bits 7:0 are the opcode byte and bits 9:8 the ALT snapshots. It gives IWT's immediate no bits: those bytes
are 0, unless the word is said to be three bytes long, where they are its bytes 1 and 2. -/
def tableBytes (nbits w : Nat) : List Byte :=
  [ tableByte w 0,
    if 24 ≤ nbits then tableByte w 1 else 0,
    if 24 ≤ nbits then tableByte w 2 else 0 ]

/-- The instruction this decoder reads from a table word; `none` where it refuses. -/
def decodeTableWord (nbits w : Nat) : Option Instr :=
  match decode (tableAlt1 w) (tableAlt2 w) (tableBytes nbits w) with
  | .ok (i, _) => some i
  | .error _ => none

end Sys2Proof
end

