-- ==== Sys2Proof/Config.lean ====
section
/-! DEFINITION. Sys2Proof/Config.lean: the implementation parameters of 00_scope.md R5 and the cost table of 70_reset_and_hazards.md R205, R206. -/

namespace Sys2Proof

/-- The ROM window in bytes: the spec's decision D1 (R5). -/
def Config.romSize : Nat := 0x200000

/-- The work-RAM buffer in bytes (R5, R28). -/
def Config.ramSize : Nat := 0x40000

/-- The instruction-cache buffer in bytes (R5, R28). -/
def Config.cacheSize : Nat := 512

/-- The initial content of every byte of every buffer (R5, R28). -/
def Config.fill : Byte := 0xFF

/-- A cost triple (R205, R206): its units are not stated. -/
structure Cost where
  rom : Nat
  ram : Nat
  cache : Nat
  deriving DecidableEq, Repr, Inhabited

/-- FREE VALUE (log 13): the cost triple of an instruction for which the spec gives none (R206). -/
opaque Config.unstatedCost : Instr → Cost

/-- The `cost` parameter of R205 with the four triples of R206 filled in. No rule reads it. -/
def Config.cost : Instr → Cost
  | .andR _ => { rom := 3, ram := 3, cache := 1 }
  | .andI _ => { rom := 6, ram := 6, cache := 2 }
  | .xorR _ => { rom := 3, ram := 3, cache := 1 }
  | .xorI _ => { rom := 6, ram := 6, cache := 2 }
  | .stop => Config.unstatedCost .stop
  | .nop => Config.unstatedCost .nop
  | .toR n => Config.unstatedCost (.toR n)
  | .withR n => Config.unstatedCost (.withR n)
  | .alt1 => Config.unstatedCost .alt1
  | .alt2 => Config.unstatedCost .alt2
  | .alt3 => Config.unstatedCost .alt3
  | .notR => Config.unstatedCost .notR
  | .merge => Config.unstatedCost .merge
  | .sex => Config.unstatedCost .sex
  | .fromR n => Config.unstatedCost (.fromR n)
  | .hib => Config.unstatedCost .hib
  | .iwt n imm => Config.unstatedCost (.iwt n imm)

end Sys2Proof
end

