-- ==== Sys2Proof/Machine/Flags.lean ====
section
/-! DEFINITION. Sys2Proof/Machine/Flags.lean: SFR bit layout, flag reads and atomic writes, and every flag computation (10_state.md R15 to R18; 43_alu.md R132, R136, R139). -/

namespace Sys2Proof.Machine

/-- The twelve named bits of SFR (R15). -/
inductive Flag where
  | irq
  | b
  | ih
  | il
  | alt2
  | alt1
  | r
  | g
  | ov
  | s
  | c
  | z
  deriving DecidableEq, Repr

/-- The fixed mask of a flag (R15). -/
def flagMask : Flag → Word
  | .irq => 0x8000
  | .b => 0x1000
  | .ih => 0x0800
  | .il => 0x0400
  | .alt2 => 0x0200
  | .alt1 => 0x0100
  | .r => 0x0040
  | .g => 0x0020
  | .ov => 0x0010
  | .s => 0x0008
  | .c => 0x0004
  | .z => 0x0002

/-- The fixed bit position of a flag (R15): the masks above are these positions. -/
def flagBit : Flag → Nat
  | .irq => 15
  | .b => 12
  | .ih => 11
  | .il => 10
  | .alt2 => 9
  | .alt1 => 8
  | .r => 6
  | .g => 5
  | .ov => 4
  | .s => 3
  | .c => 2
  | .z => 1

/-- `test_flag` on a status word (R17). -/
def testFlag (sfr : Word) (x : Flag) : Bool := sfr.getLsbD (flagBit x)

/-- One entry of a `write_flags` list: clear the flag's bit, then set it if the boolean is true (R18). -/
def writeFlag (sfr : Word) (entry : Flag × Bool) : Word :=
  let cleared := sfr &&& ~~~ flagMask entry.1
  if entry.2 then cleared ||| flagMask entry.1 else cleared

/-- `write_flags`: the entries in list order, as one update of SFR (R18). -/
def writeFlagList (sfr : Word) : List (Flag × Bool) → Word
  | [] => sfr
  | entry :: rest => writeFlagList (writeFlag sfr entry) rest

/-- Z and S from a 16-bit result: NOT, AND, SEX, XOR (R131, R139; log 7 for all but NOT). -/
def flagsWord (v : Word) : List (Flag × Bool) :=
  [(.z, v == 0), (.s, v.getLsbD 15)]

/-- Z and S from the low byte of a result: HIB (R136; log 7). -/
def flagsByte (v : Word) : List (Flag × Bool) :=
  [(.z, v.extractLsb' 0 8 == 0), (.s, v.getLsbD 7)]

/-- S, OV, C, Z from MERGE's four masks, each set iff the masked result is not 0, Z included (R132; log 6). -/
def flagsMerge (v : Word) : List (Flag × Bool) :=
  [(.s, (v &&& 0x8080) != 0), (.ov, (v &&& 0xC0C0) != 0), (.c, (v &&& 0xE0E0) != 0), (.z, (v &&& 0xF0F0) != 0)]

end Sys2Proof.Machine
end

