-- ==== Sys2Proof/Machine/Memory.lean ====
section
/-! DEFINITION. Sys2Proof/Machine/Memory.lean: a byte buffer as a canonical list of (index, byte) cells (10_state.md R28; log 11). -/

namespace Sys2Proof.Machine

/-- A backing store: the bytes that differ from the 0xFF fill, by rising index (R28; log 11). -/
abbrev Memory := List Host.Cell

/-- What an unlisted byte of any buffer reads as: the fill of R28, R54, R61. -/
def Memory.unlisted : Byte := Config.fill

/-- The byte at a buffer index. -/
def Memory.read : Memory → Nat → Byte
  | [], _ => Memory.unlisted
  | (x, c) :: m, a => if a = x then c else Memory.read m a

/-- Replace the byte at a buffer index, keeping the canonical form. No instruction calls it (20_memory.md R52):
it serves construction (R192) and the placing of an instruction for a test. -/
def Memory.write : Memory → Nat → Byte → Memory
  | [], a, b => if b = Memory.unlisted then [] else [(a, b)]
  | (x, c) :: m, a, b =>
    if a < x then (if b = Memory.unlisted then (x, c) :: m else (a, b) :: (x, c) :: m)
    else if a = x then (if b = Memory.unlisted then m else (a, b) :: m)
    else (x, c) :: Memory.write m a b

/-- Copy a byte sequence into a filled buffer from index `i` on (R28, R192). -/
def Memory.ofBytes : Nat → List Byte → Memory
  | _, [] => []
  | i, b :: bs => if b = Memory.unlisted then Memory.ofBytes (i + 1) bs else (i, b) :: Memory.ofBytes (i + 1) bs

/-- Every listed index is at least `lo`, indexes strictly rise, and no listed byte is the fill. -/
def Memory.wfFrom : Nat → Memory → Bool
  | _, [] => true
  | lo, (x, c) :: m => decide (lo ≤ x) && (c != Memory.unlisted) && Memory.wfFrom (x + 1) m

/-- The canonical form: indexes strictly rise and no listed byte is the fill, so equal contents are equal lists. -/
def Memory.wf (m : Memory) : Bool := Memory.wfFrom 0 m

/-- Every listed index lies in a buffer of `size` bytes (R28). -/
def Memory.within (size : Nat) (m : Memory) : Bool := m.all fun cell => decide (cell.1 < size)

end Sys2Proof.Machine
end

