-- ==== Sys2Proof/Machine/State.lean ====
section
/-! DEFINITION. Sys2Proof/Machine/State.lean: the whole state (10_state.md R32), the two fatal faults (60_exceptions.md R160 to R162), the refusals, and reset (R30). -/

namespace Sys2Proof.Machine

/-- The fatal faults: exactly two (R160). Both are terminal, with no successor state (R165, log 4): safe. -/
inductive Fault where
  /-- UnmappedAddress (R161). Raised by a bus read of an address in no range of 20_memory.md R42: the opcode
  fetch of any step, or an immediate fetch of IWT. It carries the 24-bit address. Safe: the spec names this fault. -/
  | unmappedAddress (a : BusAddr)
  /-- UnimplementedInstruction (R162). Raised by a step whose key (opcode byte, ALT1 and ALT2 snapshots) selects no row
  of 30_encoding.md R75. It carries the opcode byte and the two snapshots
  (log 17, the spec's decision D25). Safe: the spec names this fault. -/
  | unimplementedInstruction (op : Byte) (alt1 alt2 : Bool)
  deriving DecidableEq, Repr

/-- The refusals. -/
inductive Refusal where
  /-- Raised by an arm of `exec` whose instruction has no meaning yet. No arm of this model raises it. Safe. -/
  | notModelled (mnemonic : String)
  deriving DecidableEq, Repr

/-- The complete state of the hardware (R32): plain data. -/
structure State where
  /-- R0..R15; R15 is the program counter (R10, R12). -/
  r : Vector Word 16
  /-- The status register, all sixteen bits of it stored (R15, R19). -/
  sfr : Word
  /-- Backup-RAM bank (R20). -/
  brambr : Byte
  /-- Program bank: the bank byte of every fetch (R12, R20). -/
  pbr : Byte
  /-- ROM bank (R20): inert (R21). -/
  rombr : Byte
  /-- Config flags (R20): inert (R21). -/
  cfgr : Byte
  /-- Screen base (R20): inert (R21). -/
  scbr : Byte
  /-- Clock-speed select (R20): inert (R21). -/
  clsr : Byte
  /-- Screen mode (R20): inert (R21). -/
  scmr : Byte
  /-- RAM bank (R20): inert (R21). -/
  rambr : Byte
  /-- Cache base (R20): inert (R21). -/
  cbr : Word
  /-- Source-register latch (R25). -/
  sreg : RegIdx
  /-- Destination-register latch (R25). -/
  dreg : RegIdx
  /-- Cycle counter (R27): no rule changes it. -/
  cycles : Nat
  /-- ROM image buffer (R28). -/
  rom : Memory
  /-- Work-RAM buffer (R28), its upper half unreachable (20_memory.md R61). -/
  ram : Memory
  /-- Instruction-cache buffer (R28), never reached (20_memory.md R47). -/
  cache : Memory
  deriving DecidableEq, Repr

/-- The machine right after reset, which is construction, here from an empty ROM sequence (R30, R190, R192):
stopped, everything zero, every buffer filled. SREG, DREG and the cycle counter are 0 by the spec's
decisions D9 and D14 (log 9). -/
def State.reset : State where
  r := Vector.replicate 16 0
  sfr := 0
  brambr := 0
  pbr := 0
  rombr := 0
  cfgr := 0
  scbr := 0
  clsr := 0
  scmr := 0
  rambr := 0
  cbr := 0
  sreg := 0
  dreg := 0
  cycles := 0
  rom := []
  ram := []
  cache := []

end Sys2Proof.Machine
end

