-- ==== Sys2Proof/Machine/RegisterFile.lean ====
section
/-! DEFINITION. Sys2Proof/Machine/RegisterFile.lean: the Register File's contract: reads, width-checked writes, post-increment and post-decrement, flags (10_state.md R10, R17, R18, R22 to R24). -/

namespace Sys2Proof.Machine

/-- `R[i]` (R10). -/
def State.reg (s : State) (i : RegIdx) : Word := s.r[i]

/-- `R[i] <- v` (R10): there is no hardwired register. -/
def State.setReg (s : State) (i : RegIdx) (v : Word) : State := { s with r := s.r.set i v }

/-- `SFR.X` (R17). -/
def State.flag (s : State) (x : Flag) : Bool := testFlag s.sfr x

/-- `WriteFlags(L)`: one atomic update of SFR (R18). -/
def State.writeFlags (s : State) (l : List (Flag × Bool)) : State := { s with sfr := writeFlagList s.sfr l }

/-- The 26 register identifiers (R24): `.gpr i` for R0..R15, then the ten others. -/
inductive RegId where
  | gpr (i : RegIdx)
  | sfr
  | brambr
  | pbr
  | rombr
  | cfgr
  | scbr
  | clsr
  | scmr
  | rambr
  | cbr
  deriving DecidableEq, Repr

/-- The declared width of a register in bits (R20, R22). -/
def regWidth : RegId → Nat
  | .gpr _ => 16
  | .sfr => 16
  | .brambr => 8
  | .pbr => 8
  | .rombr => 8
  | .cfgr => 8
  | .scbr => 8
  | .clsr => 8
  | .scmr => 8
  | .rambr => 8
  | .cbr => 16

/-- `read`: 8-bit registers come back widened with zeros (R22). -/
def State.readReg (s : State) : RegId → Word
  | .gpr i => s.reg i
  | .sfr => s.sfr
  | .brambr => s.brambr.setWidth 16
  | .pbr => s.pbr.setWidth 16
  | .rombr => s.rombr.setWidth 16
  | .cfgr => s.cfgr.setWidth 16
  | .scbr => s.scbr.setWidth 16
  | .clsr => s.clsr.setWidth 16
  | .scmr => s.scmr.setWidth 16
  | .rambr => s.rambr.setWidth 16
  | .cbr => s.cbr

/-- Store a value modulo the register's own width: the storing half of R22 and the wrap of R23. -/
def State.storeReg (s : State) (id : RegId) (v : Word) : State :=
  match id with
  | .gpr i => s.setReg i v
  | .sfr => { s with sfr := v }
  | .brambr => { s with brambr := v.setWidth 8 }
  | .pbr => { s with pbr := v.setWidth 8 }
  | .rombr => { s with rombr := v.setWidth 8 }
  | .cfgr => { s with cfgr := v.setWidth 8 }
  | .scbr => { s with scbr := v.setWidth 8 }
  | .clsr => { s with clsr := v.setWidth 8 }
  | .scmr => { s with scmr := v.setWidth 8 }
  | .rambr => { s with rambr := v.setWidth 8 }
  | .cbr => { s with cbr := v }

/-- The contract violation of R22 and R163: the register and the value that does not fit it. -/
inductive ContractViolation where
  | tooWide (id : RegId) (v : Word)
  deriving DecidableEq, Repr

/-- `write`: a value that does not fit fails fast, is never truncated, and nothing is written (R22). -/
def State.writeReg (s : State) (id : RegId) (v : Word) : Except ContractViolation State :=
  if v.toNat < 2 ^ regWidth id then .ok (s.storeReg id v) else .error (.tooWide id v)

/-- `read_inc`: the old value, and the register one up, wrapping at its own width (R23). -/
def State.readInc (s : State) (id : RegId) : Word × State :=
  (s.readReg id, s.storeReg id (s.readReg id + 1))

/-- `read_dec`: the old value, and the register one down, wrapping at its own width (R23). -/
def State.readDec (s : State) (id : RegId) : Word × State :=
  (s.readReg id, s.storeReg id (s.readReg id - 1))

end Sys2Proof.Machine
end

