-- ==== Sys2Proof/Machine/Ops.lean ====
section
/-! DEFINITION. Sys2Proof/Machine/Ops.lean: the bus decoder and its reads, the fetch, the sticky state, faults, and the ends of an instruction (20_memory.md, 40_engine_step.md, 60_exceptions.md). -/

namespace Sys2Proof.Machine

/-! ## The chip-local bus -/

/-- A 24-bit address from a bank byte and an offset (R41). -/
def busAddr (bank : Byte) (offset : Word) : BusAddr := bank ++ offset

/-- `bank = a[23:16]` (R41). -/
def bankOf (a : BusAddr) : Byte := a.extractLsb' 16 8

/-- `offset = a[15:0]` (R41). -/
def offsetOf (a : BusAddr) : Word := a.extractLsb' 0 16

/-- `bank7 = a[22:16]`: the bank with its mirroring bit stripped (R41). -/
def bank7Of (a : BusAddr) : BitVec 7 := a.extractLsb' 16 7

/-- The result type of `determine_bus` (R42): the decoder never answers `cache` (R47). -/
inductive Store where
  | rom
  | ram
  | cache
  deriving DecidableEq, Repr

/-- The LoROM case of R42: the mirroring bit is ignored here and only here (log 10, the spec's decision D2). -/
def isLoRom (a : BusAddr) : Bool := decide (bank7Of a ≤ 0x3F#7) && decide (0x8000#16 ≤ offsetOf a)

/-- The HiROM case of R42: the full bank byte is compared. -/
def isHiRom (a : BusAddr) : Bool := decide (0x40#8 ≤ bankOf a) && decide (bankOf a ≤ 0x5F#8)

/-- The RAM case of R42: the full bank byte is compared. -/
def isRam (a : BusAddr) : Bool := decide (0x70#8 ≤ bankOf a) && decide (bankOf a ≤ 0x71#8)

/-- `determine_bus` in the precedence of R42; every other address is an unmapped-address fault. -/
def determineBus (a : BusAddr) : Except Fault Store :=
  if isLoRom a then .ok .rom
  else if isHiRom a then .ok .rom
  else if isRam a then .ok .ram
  else .error (.unmappedAddress a)

/-- The ROM index of a ROM-classified address (R43). -/
def romIndex (a : BusAddr) : Nat :=
  if isLoRom a then ((offsetOf a).toNat - 0x8000) + (bank7Of a).toNat * 0x8000
  else ((bankOf a).toNat - 0x40) * 0x10000 + (offsetOf a).toNat

/-- The RAM index of a RAM-classified address (R44). -/
def ramIndex (a : BusAddr) : Nat :=
  ((bankOf a).toNat - 0x70) * 0x10000 + (offsetOf a).toNat

/-- `MemRead(a, 1)`, the source's `read_bus` (R45). The `cache` case is never reached (R47): no cache policy is
invented, the address would count as unmapped (log 14). -/
def State.memRead (s : State) (a : BusAddr) : Except Fault Byte :=
  match determineBus a with
  | .ok .rom => .ok (s.rom.read (romIndex a))
  | .ok .ram => .ok (s.ram.read (ramIndex a))
  | .ok .cache => .error (.unmappedAddress a)
  | .error f => .error f

/-- The address-increment rule: the whole bank byte is kept, the offset wraps modulo 65536, for any integer delta (R48). -/
def advance (a : BusAddr) (d : Int) : BusAddr :=
  busAddr (bankOf a) (BitVec.ofInt 16 ((offsetOf a).toNat + d))

/-- The two bytes of `MemRead(a, 2)`: the byte at `a`, then the byte at `Advance(a, 1)`; the first fault met is raised (R46). -/
def State.memReadPair (s : State) (a : BusAddr) : Except Fault (Byte × Byte) :=
  match s.memRead a with
  | .error f => .error f
  | .ok lo =>
    match s.memRead (advance a 1) with
    | .error f => .error f
    | .ok hi => .ok (lo, hi)

/-- `MemRead(a, 2)`, the source's `read16_bus`: little-endian (R46, R49). -/
def State.memRead16 (s : State) (a : BusAddr) : Except Fault Word :=
  match s.memReadPair a with
  | .error f => .error f
  | .ok (lo, hi) => .ok (wordOfBytes lo hi)

/-! ## Fetch (phase 1, and IWT's immediate) -/

/-- The fetch address `PBR ++ R[15]` (R12, R93). -/
def State.fetchAddr (s : State) : BusAddr := busAddr s.pbr (s.reg 15)

/-- `read_inc(R15)` without its value: R15 one up, modulo 65536, PBR untouched (R13, R23). -/
def State.incPc (s : State) : State := (s.readInc (.gpr 15)).2

/-- `FetchByte()`: the byte at `PBR ++ R[15]`, then R15 one up (R93). -/
def State.fetchByte (s : State) : Except Fault (Byte × State) :=
  match s.memRead s.fetchAddr with
  | .error f => .error f
  | .ok b => .ok (b, s.incPc)

/-- The bytes of the instruction whose opcode byte is `op`, the fetch address of `s` being that of the byte after it:
for IWT the immediate's two bytes are read where R150's two `FetchByte()` read them, in that order (R46, R79). -/
def State.instrBytes (s : State) (op : Byte) : Except Fault (List Byte) :=
  if hasImmediate op then
    match s.memReadPair s.fetchAddr with
    | .error f => .error f
    | .ok (lo, hi) => .ok [op, lo, hi]
  else .ok [op]

/-- Phase 1 and the decode: the instruction at the fetch address under the ALT flags as they stand, and the state
after phase 1, R15 at the byte after the opcode byte. Faults in the order of R164; log 3. -/
def State.fetchInstr (s : State) : Except Fault (Instr × State) :=
  match s.fetchByte with
  | .error f => .error f
  | .ok (op, s1) =>
    match s1.instrBytes op with
    | .error f => .error f
    | .ok bytes =>
      match decode (s1.flag .alt1) (s1.flag .alt2) bytes with
      | .ok (i, _) => .ok (i, s1)
      | .error _ => .error (.unimplementedInstruction op (s1.flag .alt1) (s1.flag .alt2))

/-! ## The sticky state (phases 2 and 3) -/

/-- `SREG <- n` (R25). -/
def State.setSreg (s : State) (n : RegIdx) : State := { s with sreg := n }

/-- `DREG <- n` (R25). -/
def State.setDreg (s : State) (n : RegIdx) : State := { s with dreg := n }

/-- Phases 2 and 3 of every step: ALT1 and ALT2 cleared in one update, then both latches reset (R94, R95).
The snapshots are the fields of the state before it. -/
def State.consumeSticky (s : State) : State :=
  ((s.writeFlags [(.alt1, false), (.alt2, false)]).setSreg 0).setDreg 0

/-- What a prefix does in phase 4: set the flags it names, and restore both latches to the snapshots of `before` (R123 to R125). -/
def State.applyPrefix (before : State) (l : List (Flag × Bool)) : State :=
  ((before.consumeSticky.writeFlags l).setSreg before.sreg).setDreg before.dreg

/-! ## The ends of an instruction -/

/-- Phase 5, the cycle hook of R97 and R205: the extension point that takes the instruction's cost triple and is a no-op. -/
def State.cycleHook (s : State) (_cost : Cost) : State := s

/-- The end of a completed instruction: phase 5, then the successor state (R92). -/
def complete (i : Instr) (s : State) : Host.Outcome State Fault Refusal :=
  .next (s.cycleHook (Config.cost i))

/-- Taking an exception on this hardware (R160, R165): nothing is saved, no vector is taken, no handler runs; the fault
propagates out of the step and there is no successor state and no return (R166; log 4). -/
def raise (f : Fault) : Host.Outcome State Fault Refusal := .fault f

/-- The end of phase 4 of a data-processing instruction: the result, computed from the state before phases 2 and 3, goes to
`R[d]`, then one atomic flag update (R98, R99, R130). `d` may be 15: then the write is a jump (R101). -/
def State.writeResult (before : State) (v : Word) (l : List (Flag × Bool)) : State :=
  (before.consumeSticky.setReg before.dreg v).writeFlags l

end Sys2Proof.Machine
end

