-- ==== Sys2Proof/Machine/Operands.lean ====
section
/-! DEFINITION. Sys2Proof/Machine/Operands.lean: every operand form and every result a data-processing instruction computes (30_encoding.md R74; 40_engine_step.md R98; 43_alu.md). -/

namespace Sys2Proof.Machine

/-- The source register `R[s]`, `s` the SREG snapshot (R98). -/
def State.source (s : State) : Word := s.reg s.sreg

/-- The 4-bit immediate of AND #n and XOR #n, zero-extended (R74 a; log 7, the spec's decision D20). -/
def immNibble (n : Nibble) : Word := n.setWidth 16

/-- NOT's result (R131). -/
def notResult (v : Word) : Word := ~~~ v

/-- AND's result (R133, R134). -/
def andResult (v w : Word) : Word := v &&& w

/-- XOR's result (R137, R138). -/
def xorResult (v w : Word) : Word := v ^^^ w

/-- SEX's result: bits 15:8 copy bit 7 (R135). -/
def sexResult (v : Word) : Word := (v.extractLsb' 0 8).signExtend 16

/-- HIB's result: a logical shift right by 8 (R136; log 7, the spec's decision D7). -/
def hibResult (v : Word) : Word := v >>> 8

/-- MERGE's result from R7 and R8 (R132; log 6, the spec's decision D4). -/
def mergeResult (r7 r8 : Word) : Word := (r7 &&& 0xFF00) + (r8 >>> 8)

end Sys2Proof.Machine
end

