-- ==== Sys2Proof/Machine/Alu.lean ====
section
/-! DEFINITION. Sys2Proof/Machine/Alu.lean: NOT, MERGE, AND, SEX, HIB, XOR (43_alu.md). Every operand is read from the state after phase 1, before any write (R99). -/

namespace Sys2Proof.Machine

/-- NOT (R131). -/
def execNotR (s : State) : Host.Outcome State Fault Refusal :=
  complete .notR (s.writeResult (notResult s.source) (flagsWord (notResult s.source)))

/-- MERGE (R132): the sources are R7 and R8 themselves; the SREG snapshot is not used. -/
def execMerge (s : State) : Host.Outcome State Fault Refusal :=
  complete .merge (s.writeResult (mergeResult (s.reg 7) (s.reg 8)) (flagsMerge (mergeResult (s.reg 7) (s.reg 8))))

/-- AND Rn (R133). -/
def execAndR (n : RegIdx) (s : State) : Host.Outcome State Fault Refusal :=
  complete (.andR n) (s.writeResult (andResult s.source (s.reg n)) (flagsWord (andResult s.source (s.reg n))))

/-- AND #n (R134). -/
def execAndI (n : Nibble) (s : State) : Host.Outcome State Fault Refusal :=
  complete (.andI n) (s.writeResult (andResult s.source (immNibble n)) (flagsWord (andResult s.source (immNibble n))))

/-- SEX (R135). -/
def execSex (s : State) : Host.Outcome State Fault Refusal :=
  complete .sex (s.writeResult (sexResult s.source) (flagsWord (sexResult s.source)))

/-- HIB (R136): the flags have 8-bit semantics. -/
def execHib (s : State) : Host.Outcome State Fault Refusal :=
  complete .hib (s.writeResult (hibResult s.source) (flagsByte (hibResult s.source)))

/-- XOR Rn (R137). -/
def execXorR (n : RegIdx) (s : State) : Host.Outcome State Fault Refusal :=
  complete (.xorR n) (s.writeResult (xorResult s.source (s.reg n)) (flagsWord (xorResult s.source (s.reg n))))

/-- XOR #n (R138). -/
def execXorI (n : Nibble) (s : State) : Host.Outcome State Fault Refusal :=
  complete (.xorI n) (s.writeResult (xorResult s.source (immNibble n)) (flagsWord (xorResult s.source (immNibble n))))

end Sys2Proof.Machine
end

