-- ==== Sys2Proof/Machine/Control.lean ====
section
/-! DEFINITION. Sys2Proof/Machine/Control.lean: STOP and NOP (41_control.md). A meaning runs phases 2 to 5 on the state after phase 1 (log 3). -/

namespace Sys2Proof.Machine

/-- STOP (R110): clear G. IRQ is not touched. -/
def execStop (s : State) : Host.Outcome State Fault Refusal :=
  complete .stop (s.consumeSticky.writeFlags [(.g, false)])

/-- NOP (R111): nothing beyond the common phases. -/
def execNop (s : State) : Host.Outcome State Fault Refusal :=
  complete .nop s.consumeSticky

end Sys2Proof.Machine
end

