-- ==== Sys2Proof/Machine/Select.lean ====
section
/-! DEFINITION. Sys2Proof/Machine/Select.lean: the selectors TO, WITH, FROM and the prefixes ALT1, ALT2, ALT3 (42_prefix_select.md). -/

namespace Sys2Proof.Machine

/-- TO Rn (R120): DREG is loaded, SREG is left at its reset. -/
def execToR (n : RegIdx) (s : State) : Host.Outcome State Fault Refusal :=
  complete (.toR n) (s.consumeSticky.setDreg n)

/-- WITH Rn (R121): both latches are loaded; B is not touched. -/
def execWithR (n : RegIdx) (s : State) : Host.Outcome State Fault Refusal :=
  complete (.withR n) ((s.consumeSticky.setSreg n).setDreg n)

/-- FROM Rn (R122): SREG is loaded, DREG is left at its reset. -/
def execFromR (n : RegIdx) (s : State) : Host.Outcome State Fault Refusal :=
  complete (.fromR n) (s.consumeSticky.setSreg n)

/-- ALT1 (R123). -/
def execAlt1 (s : State) : Host.Outcome State Fault Refusal :=
  complete .alt1 (s.applyPrefix [(.alt1, true)])

/-- ALT2 (R124). -/
def execAlt2 (s : State) : Host.Outcome State Fault Refusal :=
  complete .alt2 (s.applyPrefix [(.alt2, true)])

/-- ALT3 (R125). -/
def execAlt3 (s : State) : Host.Outcome State Fault Refusal :=
  complete .alt3 (s.applyPrefix [(.alt1, true), (.alt2, true)])

end Sys2Proof.Machine
end

