-- ==== Sys2Proof/Machine/Transfer.lean ====
section
/-! DEFINITION. Sys2Proof/Machine/Transfer.lean: IWT, which is also the unconditional jump (44_iwt.md). -/

namespace Sys2Proof.Machine

/-- IWT Rn, #imm (R150): R15 is advanced past the two immediate bytes, whose reads the fetch made and which are `imm`;
then R[n] is written, so that with n = 15 the instruction jumps to `imm` exactly (R151). No flag is written. -/
def execIwt (n : RegIdx) (imm : Word) (s : State) : Host.Outcome State Fault Refusal :=
  complete (.iwt n imm) (s.consumeSticky.incPc.incPc.setReg n imm)

end Sys2Proof.Machine
end

