-- ==== Sys2Proof/Machine/Dispatch.lean ====
section
/-! DEFINITION. Sys2Proof/Machine/Dispatch.lean: phases 2 to 5 of a step, one arm per instruction (40_engine_step.md R96). -/

namespace Sys2Proof.Machine

def exec (i : Instr) (s : State) : Host.Outcome State Fault Refusal :=
  match i with
  | .stop => Sys2Proof.Machine.execStop s
  | .nop => Sys2Proof.Machine.execNop s
  | .toR n => Sys2Proof.Machine.execToR n s
  | .withR n => Sys2Proof.Machine.execWithR n s
  | .alt1 => Sys2Proof.Machine.execAlt1 s
  | .alt2 => Sys2Proof.Machine.execAlt2 s
  | .alt3 => Sys2Proof.Machine.execAlt3 s
  | .notR => Sys2Proof.Machine.execNotR s
  | .merge => Sys2Proof.Machine.execMerge s
  | .andR n => Sys2Proof.Machine.execAndR n s
  | .andI n => Sys2Proof.Machine.execAndI n s
  | .sex => Sys2Proof.Machine.execSex s
  | .fromR n => Sys2Proof.Machine.execFromR n s
  | .hib => Sys2Proof.Machine.execHib s
  | .xorR n => Sys2Proof.Machine.execXorR n s
  | .xorI n => Sys2Proof.Machine.execXorI n s
  | .iwt n imm => Sys2Proof.Machine.execIwt n imm s

end Sys2Proof.Machine
end

