-- ==== Sys2Proof/Machine/Placing.lean ====
section
/-! DEFINITION. Sys2Proof/Machine/Placing.lean: how an instruction is put where the next Tick fetches it (70_reset_and_hazards.md R192, R194, R198; log 1, log 2). No instruction uses it. -/

namespace Sys2Proof.Machine

/-- Put a byte into the buffer a mapped chip-local address reads; an unmapped address is left alone. Construction and
Restore are the hardware's only ways to change a buffer (R29): this stands for them. -/
def State.placeByte (s : State) (a : BusAddr) (b : Byte) : State :=
  match determineBus a with
  | .ok .rom => { s with rom := s.rom.write (romIndex a) b }
  | .ok .ram => { s with ram := s.ram.write (ramIndex a) b }
  | .ok .cache => s
  | .error _ => s

/-- Is the address mapped (R42)? -/
def isMapped (a : BusAddr) : Bool := isLoRom a || isHiRom a || isRam a

/-- Are the three bytes from the fetch address on mapped, so that the longest instruction fits there? -/
def State.fetchWindowMapped (s : State) : Bool :=
  isMapped s.fetchAddr && isMapped (advance s.fetchAddr 1) && isMapped (advance s.fetchAddr 2)

/-- The launch address of R198 (bank 0x00, offset 0x8000) where the current one cannot hold an instruction; else unchanged. -/
def State.moveToMapped (s : State) : State :=
  if s.fetchWindowMapped then s else ({ s with pbr := 0 } : State).setReg 15 0x8000

/-- Place three bytes from the fetch address on. -/
def State.placeAtFetch (s : State) (b0 b1 b2 : Byte) : State :=
  ((s.placeByte s.fetchAddr b0).placeByte (advance s.fetchAddr 1) b1).placeByte (advance s.fetchAddr 2) b2

/-- Make the next Tick run the instruction with bytes `b0 b1 b2` under the given ALT flags: a mapped fetch address,
the bytes there, the ALT flags, and G set (R194, R198). -/
def State.placeInstr (s : State) (alt1 alt2 : Bool) (b0 b1 b2 : Byte) : State :=
  (s.moveToMapped.placeAtFetch b0 b1 b2).writeFlags [(.alt1, alt1), (.alt2, alt2), (.g, true)]

end Sys2Proof.Machine
end

