-- ==== Sys2Proof/Machine/Step.lean ====
section
/-! DEFINITION. Sys2Proof/Machine/Step.lean: one Tick of the engine (40_engine_step.md R90 to R92), and the host's withFetchWord. -/

namespace Sys2Proof.Machine

/-- One running step: fetch and decode, then phases 2 to 5 (R92). -/
def runStep (s : State) : Host.Outcome State Fault Refusal :=
  match s.fetchInstr with
  | .error f => raise f
  | .ok (i, s1) => exec i s1

/-- One Tick (R90): nothing at all while G is clear (R91; log 17, the spec's decision D26), exactly one step while it is set. -/
def step (s : State) : Host.Outcome State Fault Refusal :=
  if s.flag .g then runStep s else .next s

/-- `s` with a table word's instruction where the next Tick fetches, and everything that takes (log 1, log 2). -/
def State.withFetchWord (s : State) (nbits w : Nat) : State :=
  match tableBytes nbits w with
  | [b0, b1, b2] => s.placeInstr (tableAlt1 w) (tableAlt2 w) b0 b1 b2
  | _ => s

end Sys2Proof.Machine
end

