-- ==== Sys2Proof/Machine/Driver.lean ====
section
/-! DEFINITION. Sys2Proof/Machine/Driver.lean: the whole interface of the host driver, between Ticks (70_reset_and_hazards.md R192 to R198; log 12). -/

namespace Sys2Proof.Machine

/-- `Construct(rom_bytes)`: defined only when the sequence fits the ROM window (R192; the spec's decision D23). -/
def construct (romBytes : List Byte) : Option State :=
  if romBytes.length ≤ Config.romSize then some { State.reset with rom := Memory.ofBytes 0 romBytes } else none

/-- `Snapshot()`: the whole tuple of R32 (R196). -/
def State.snapshot (s : State) : State := s

/-- `Restore(snap)`: replaces the whole state (R196). -/
def State.restore (_ : State) (snap : State) : State := snap

/-- What the driver can do that changes the state (R193). Reads (`State.readReg`, `State.flag`, `State.snapshot`) change nothing. -/
inductive DriverAction where
  /-- One Tick (R90). -/
  | tick
  /-- A register write under the width rule (R195, R22). -/
  | writeReg (id : RegId) (v : Word)
  /-- An atomic flag update (R195, R18); setting and clearing G is how the engine is started and stopped (R194). -/
  | writeFlags (l : List (Flag × Bool))
  /-- Restore (R196). -/
  | restore (snap : State)
  deriving DecidableEq, Repr

/-- What a driver action ends in. -/
inductive DriverOutcome where
  /-- The action completed. -/
  | done (s : State)
  /-- A Tick faulted: there is no state to go on from (R165). -/
  | fault (f : Fault)
  /-- A Tick was refused: no Tick of this model is. -/
  | refused (r : Refusal)
  /-- A register write broke the width contract; the register is unchanged (R22, R163). -/
  | contractViolation (e : ContractViolation)
  deriving DecidableEq, Repr

/-- A Tick as a driver action (R193). -/
def driverTick (s : State) : DriverOutcome :=
  match step s with
  | .next t => .done t
  | .fault f => .fault f
  | .refused r => .refused r

/-- A register write as a driver action (R195). -/
def driverWrite (s : State) (id : RegId) (v : Word) : DriverOutcome :=
  match s.writeReg id v with
  | .ok t => .done t
  | .error e => .contractViolation e

/-- One driver action (R193). -/
def drive (s : State) : DriverAction → DriverOutcome
  | .tick => driverTick s
  | .writeReg id v => driverWrite s id v
  | .writeFlags l => .done (s.writeFlags l)
  | .restore snap => .done (s.restore snap)

/-- A sequence of driver actions in the driver's single total order (R197), up to the first that does not complete. -/
def driveAll (s : State) : List DriverAction → DriverOutcome
  | [] => .done s
  | a :: rest =>
    match drive s a with
    | .done t => driveAll t rest
    | .fault f => .fault f
    | .refused r => .refused r
    | .contractViolation e => .contractViolation e

/-- The launch of R198: PBR and R15 at a mapped address, then G set. -/
def State.launch (s : State) (bank : Byte) (offset : Word) : State :=
  (({ s with pbr := bank } : State).setReg 15 offset).writeFlags [(.g, true)]

end Sys2Proof.Machine
end

