-- ==== Sys2Proof/Safety.lean ====
section
/-! DEFINITION. Sys2Proof/Safety.lean: ends of a run, what a step keeps, and the invariants the statements are in terms of. -/

namespace Sys2Proof.Machine

/-- The engine is stopped (R90, R174). -/
def State.stopped (s : State) : Bool := !s.flag .g

/-- `k` Ticks, none of which faults, lead from `s` to `t`. -/
inductive Ticks : Nat → State → State → Prop where
  | none (s : State) : Ticks 0 s s
  | more {k : Nat} {s t u : State} : step s = .next t → Ticks k t u → Ticks (k + 1) s u

/-- A run ends normally: Ticks without a fault lead to the stopped engine (R104).
DESIGN CHOICE (log 16): no Tick need be executed, so an engine stopped before its first Tick counts as ended normally; R104
speaks only of a run in which a Tick executes STOP. -/
def EndsNormally (s : State) : Prop := ∃ k t, Ticks k s t ∧ t.stopped = true

/-- A run ends abnormally: Ticks without a fault lead to a state whose Tick faults (R104, R165). -/
def EndsAbnormally (s : State) : Prop := ∃ k t f, Ticks k s t ∧ step t = .fault f

/-- The engine is running and the byte at its fetch address is `op` (R93). -/
def State.runsOpcode (s : State) (op : Byte) : Prop := s.flag .g = true ∧ s.memRead s.fetchAddr = .ok op

/-- The state after phase 1: R15 one up, nothing else changed (R93). -/
def State.afterFetch (s : State) : State := s.setReg 15 (s.reg 15 + 1)

/-- The bytes `l` lie in the address order of fetching from `a` on (R48, R49). -/
def State.bytesAt (s : State) (a : BusAddr) : List Byte → Prop
  | [] => True
  | b :: l => s.memRead a = .ok b ∧ s.bytesAt (advance a 1) l

/-- The nine control registers and the cycle counter are the same (R20, R27). -/
def SameControl (s t : State) : Prop :=
  t.brambr = s.brambr ∧ t.pbr = s.pbr ∧ t.rombr = s.rombr ∧ t.cfgr = s.cfgr ∧ t.scbr = s.scbr ∧ t.clsr = s.clsr ∧
  t.scmr = s.scmr ∧ t.rambr = s.rambr ∧ t.cbr = s.cbr ∧ t.cycles = s.cycles

/-- Every byte of every buffer is the same, reached through the bus or not (R28, R29). -/
def SameBuffers (s t : State) : Prop :=
  (∀ a, t.memRead a = s.memRead a) ∧ (∀ n, t.rom.read n = s.rom.read n) ∧ (∀ n, t.ram.read n = s.ram.read n) ∧
  (∀ n, t.cache.read n = s.cache.read n)

/-- Every general register but those listed is the same. -/
def SameRegsBut (l : List RegIdx) (s t : State) : Prop := ∀ i, i ∉ l → t.reg i = s.reg i

/-- Every bit of SFR but those numbered in the list is the same. -/
def SameSfrBut (l : List Nat) (s t : State) : Prop := ∀ k, k ∉ l → t.sfr.getLsbD k = s.sfr.getLsbD k

/-- The two sticky decode flags (SFR bits 8 and 9) have these values (R26). -/
def AltFlags (t : State) (alt1 alt2 : Bool) : Prop := t.sfr.getLsbD 8 = alt1 ∧ t.sfr.getLsbD 9 = alt2

/-- The two latches have these values (R25). -/
def Latches (t : State) (sreg dreg : RegIdx) : Prop := t.sreg = sreg ∧ t.dreg = dreg

/-- The key is in the illegal space as 30_encoding.md R81 lists it, opcode range by opcode range; no range depends on ALT2. -/
def illegalKey (op : Byte) (alt1 : Bool) : Prop :=
  (0x02#8 ≤ op ∧ op ≤ 0x0F#8) ∨ (0x30#8 ≤ op ∧ op ≤ 0x3C#8) ∨ (0x40#8 ≤ op ∧ op ≤ 0x4E#8) ∨
  (0x50#8 ≤ op ∧ op ≤ 0x6F#8) ∨ (0x71#8 ≤ op ∧ op ≤ 0x7F#8 ∧ alt1 = true) ∨ (0x80#8 ≤ op ∧ op ≤ 0x94#8) ∨
  (0x96#8 ≤ op ∧ op ≤ 0xAF#8) ∨ (0xC1#8 ≤ op ∧ op ≤ 0xCF#8 ∧ alt1 = false) ∨
  (0xD0#8 ≤ op ∧ op ≤ 0xEF#8)

/-- The address is unmapped as 60_exceptions.md R161 lists it. -/
def unmappedRange (bank : Byte) (offset : Word) : Prop :=
  ((bank ≤ 0x3F#8 ∨ (0x80#8 ≤ bank ∧ bank ≤ 0xBF#8)) ∧ offset < 0x8000#16) ∨
  (0x60#8 ≤ bank ∧ bank ≤ 0x6F#8) ∨ (0x72#8 ≤ bank ∧ bank ≤ 0x7F#8) ∨ 0xC0#8 ≤ bank

/-- The buffers are in canonical form and inside their sizes (R28; log 11). -/
def BuffersOk (s : State) : Prop :=
  (s.rom.wf = true ∧ s.rom.within Config.romSize = true) ∧ (s.ram.wf = true ∧ s.ram.within Config.ramSize = true) ∧
  (s.cache.wf = true ∧ s.cache.within Config.cacheSize = true)

/-- Both latches are non-zero only where they are equal: only WITH loads two, and prefixes keep what they find (R100 item 3, R126). -/
def SelectionOk (s : State) : Prop := s.sreg = 0 ∨ s.dreg = 0 ∨ s.sreg = s.dreg

/-- The invariant every Tick keeps. -/
def Invariant (s : State) : Prop := BuffersOk s ∧ SelectionOk s

/-- The two states agree on everything a rule of the engine reads: R0..R15, SFR, PBR, the latches, the ROM window and the
reachable half of RAM. They may differ in the other control registers, the cycle counter, the cache and the upper RAM
(R21, R27; 20_memory.md R47, R61). -/
def SameForEngine (s t : State) : Prop :=
  s.r = t.r ∧ s.sfr = t.sfr ∧ s.pbr = t.pbr ∧ s.sreg = t.sreg ∧ s.dreg = t.dreg ∧
  (∀ n, n < 0x200000 → s.rom.read n = t.rom.read n) ∧ (∀ n, n < 0x20000 → s.ram.read n = t.ram.read n)

end Sys2Proof.Machine
end

