-- ==== Sys2Proof/Certificates/Slice0/Obligations.lean ====
section
/-! DEFINITION. Sys2Proof/Certificates/Slice0/Obligations.lean: the statements for the provers. A statement whose docstring names a decision D<n> of spec/92_eei_decisions.md rests on the spec's own choice there, not on its source. -/

open Sys2Proof Sys2Proof.Machine

/-- O1. In the reset state each of the 26 registers reads 0, both latches and the cycle counter are 0 (the spec's own
decisions D9 and D14, log 9), G is clear, the fetch address 00:0000 is unmapped, and every byte of ROM, RAM and cache
reads 0xFF (no image is supplied).
Rests on: 10_state.md section 7 (Reset values), 92_eei_decisions.md D9, 92_eei_decisions.md D14. -/
def Obligations.ResetIsZeroedStoppedAndFilled : Prop :=
  (∀ id, State.reset.readReg id = 0) ∧ Latches State.reset 0 0 ∧ State.reset.cycles = 0 ∧ State.reset.stopped = true ∧
  State.reset.memRead State.reset.fetchAddr = .error (.unmappedAddress 0x000000) ∧
  ∀ n, State.reset.rom.read n = 0xFF ∧ State.reset.ram.read n = 0xFF ∧ State.reset.cache.read n = 0xFF

/-- O2. For every image: if it has at most 0x200000 bytes (the spec's decision D1) construction gives a state whose
ROM byte n is image byte n below the image's length and 0xFF from there on, whose RAM and cache are all 0xFF, whose
registers are 0, whose latches and cycle counter are 0 (the spec's own decisions D9 and D14, log 9), and whose buffers
are in canonical form (the model's own representation, log 11); if it is longer there is no engine (the spec's
decision D23).
Rests on: 70_reset_and_hazards.md section 1 (Constructor contract), 10_state.md section 6, 92_eei_decisions.md D1,
92_eei_decisions.md D9, 92_eei_decisions.md D23, 92_eei_decisions.md D14, notes/assumptions/9.md,
notes/assumptions/11.md. -/
def Obligations.ConstructCopiesImageOverFill : Prop :=
  ∀ image : List Byte,
    (image.length ≤ 0x200000 → ∃ s, construct image = some s ∧
      (∀ n (h : n < image.length), s.rom.read n = image[n]) ∧ (∀ n, image.length ≤ n → s.rom.read n = 0xFF) ∧
      (∀ n, s.ram.read n = 0xFF) ∧ (∀ n, s.cache.read n = 0xFF) ∧
      (∀ id, s.readReg id = 0) ∧ Latches s 0 0 ∧ s.cycles = 0 ∧ BuffersOk s) ∧
    (0x200000 < image.length → construct image = none)

/-- O3. A write to R0..R15, SFR or the cache base succeeds for every 16-bit value and reads back; a write to one of
the eight 8-bit registers succeeds for values up to 0xFF and reads back widened; a value above 0xFF is a contract
violation and nothing is written; the eight bank and control registers are the only 8-bit ones; an 8-bit register
never reads above 0xFF; and no Tick that answers a next state changes one of the nine control registers or the cycle
counter, so no Tick can violate the contract. That the refusal is an outcome with the register unchanged is the spec's
own decision D17 (log 12); that no Tick changes the control registers, the cache base among them, is its D16 (log 10),
and the cycle counter its D14 (log 9).
Rests on: 10_state.md section 4 (Width enforcement), 10_state.md section 5, 92_eei_decisions.md D14,
92_eei_decisions.md D16, 92_eei_decisions.md D17, notes/assumptions/9.md, notes/assumptions/10.md,
notes/assumptions/12.md. -/
def Obligations.RegisterWriteChecksWidth : Prop :=
  (∀ s : State, ∀ v : Word, ∀ id, (id = .sfr ∨ id = .cbr ∨ ∃ i, id = .gpr i) →
    ∃ t, s.writeReg id v = .ok t ∧ t.readReg id = v) ∧
  (∀ s : State, ∀ v : Word, ∀ id,
    (id = .brambr ∨ id = .pbr ∨ id = .rombr ∨ id = .cfgr ∨ id = .scbr ∨ id = .clsr ∨ id = .scmr ∨ id = .rambr) →
      s.readReg id ≤ 0xFF ∧
      (v ≤ 0xFF → ∃ t, s.writeReg id v = .ok t ∧ t.readReg id = v) ∧
      (0xFF < v → s.writeReg id v = .error (.tooWide id v))) ∧
  (∀ s t, step s = .next t → SameControl s t)

/-- O4. For each of the 26 registers: read_inc and read_dec return the value before, leave the register one up or one down
modulo 2^16 for a 16-bit register and modulo 2^8 for an 8-bit one, and leave every other register as it was.
Rests on: 10_state.md section 4 (read_inc, read_dec), 90_conflicts.md C9. -/
def Obligations.ReadIncDecWrapAtOwnWidth : Prop :=
  ∀ (s : State) (id : RegId),
    (s.readInc id).1 = s.readReg id ∧ (s.readDec id).1 = s.readReg id ∧
    ((s.readInc id).2.readReg id).toNat = ((s.readReg id).toNat + 1) % 2 ^ regWidth id ∧
    ((s.readDec id).2.readReg id).toNat = ((s.readReg id).toNat + 2 ^ regWidth id - 1) % 2 ^ regWidth id ∧
    ∀ id', id' ≠ id → (s.readInc id).2.readReg id' = s.readReg id' ∧ (s.readDec id).2.readReg id' = s.readReg id'

/-- O5. Each flag's mask is the one listed, reading a flag is testing SFR with that mask and also reading the bit at the
listed position, and a flag write reaches that one bit, so each is independent.
Rests on: R15. -/
def Obligations.FlagPositionsAreFixed : Prop :=
  (flagMask .irq = 0x8000 ∧ flagMask .b = 0x1000 ∧ flagMask .ih = 0x0800 ∧ flagMask .il = 0x0400 ∧
   flagMask .alt2 = 0x0200 ∧ flagMask .alt1 = 0x0100 ∧ flagMask .r = 0x0040 ∧ flagMask .g = 0x0020 ∧
   flagMask .ov = 0x0010 ∧ flagMask .s = 0x0008 ∧ flagMask .c = 0x0004 ∧ flagMask .z = 0x0002) ∧
  (∀ s : State, s.flag .irq = s.sfr.getLsbD 15 ∧ s.flag .b = s.sfr.getLsbD 12 ∧ s.flag .ih = s.sfr.getLsbD 11 ∧
   s.flag .il = s.sfr.getLsbD 10 ∧ s.flag .alt2 = s.sfr.getLsbD 9 ∧ s.flag .alt1 = s.sfr.getLsbD 8 ∧
   s.flag .r = s.sfr.getLsbD 6 ∧ s.flag .g = s.sfr.getLsbD 5 ∧ s.flag .ov = s.sfr.getLsbD 4 ∧
   s.flag .s = s.sfr.getLsbD 3 ∧ s.flag .c = s.sfr.getLsbD 2 ∧ s.flag .z = s.sfr.getLsbD 1) ∧
  (∀ (s : State) (x : Flag), s.flag x = ((s.sfr &&& flagMask x) != 0)) ∧
  (∀ (s : State) (x y : Flag) (b : Bool), (s.writeFlags [(x, b)]).flag y = if y = x then b else s.flag y)

/-- O6. For every list: a flag that is named holds the boolean of its last entry afterwards; a bit of SFR that no entry
names is unchanged; and nothing but SFR changes.
Rests on: R18. -/
def Obligations.WriteFlagsTouchesNamedFlagsOnly : Prop :=
  ∀ (s : State) (l : List (Flag × Bool)),
    (∀ before after x b, l = before ++ (x, b) :: after → (∀ e ∈ after, e.1 ≠ x) → (s.writeFlags l).flag x = b) ∧
    (∀ k, (∀ e ∈ l, (flagMask e.1).getLsbD k = false) → (s.writeFlags l).sfr.getLsbD k = s.sfr.getLsbD k) ∧
    SameRegsBut [] s (s.writeFlags l) ∧ Latches (s.writeFlags l) s.sreg s.dreg ∧ SameControl s (s.writeFlags l) ∧
    SameBuffers s (s.writeFlags l)

/-- O7. For every address and every integer delta the bank is unchanged and the offset is the old offset plus the
delta, modulo 65536. That a negative delta is read modulo 65536 is the spec's own decision D24.
Rests on: 20_memory.md section 2 (Address-increment rule), 92_eei_decisions.md D24. -/
def Obligations.AdvanceKeepsBankWrapsOffset : Prop :=
  ∀ (a : BusAddr) (d : Int),
    bankOf (advance a d) = bankOf a ∧ ((offsetOf (advance a d)).toNat : Int) = ((offsetOf a).toNat + d) % 65536

/-- O8. For every bank and offset: the decoder answers ROM exactly for banks 0x00-0x3F and 0x80-0xBF with offset at least
0x8000 and for banks 0x40-0x5F; RAM exactly for banks 0x70-0x71; otherwise, which is exactly the list of unmapped
addresses, it raises UnmappedAddress with that address; it never answers Cache. That banks 0xC0-0xDF and 0xF0-0xF1 are
unmapped is the spec's own decision D2 (log 10).
Rests on: 20_memory.md section 2 (The bus decoder), 60_exceptions.md section 1, 92_eei_decisions.md D2. -/
def Obligations.BusDecoderClassifiesEveryAddress : Prop :=
  ∀ (bank : Byte) (offset : Word),
    (determineBus (busAddr bank offset) = .ok .rom ↔
      ((bank ≤ 0x3F ∨ (0x80 ≤ bank ∧ bank ≤ 0xBF)) ∧ 0x8000 ≤ offset) ∨ (0x40 ≤ bank ∧ bank ≤ 0x5F)) ∧
    (determineBus (busAddr bank offset) = .ok .ram ↔ bank = 0x70 ∨ bank = 0x71) ∧
    (determineBus (busAddr bank offset) = .error (.unmappedAddress (busAddr bank offset)) ↔ unmappedRange bank offset) ∧
    determineBus (busAddr bank offset) ≠ .ok .cache

/-- O9. For every ROM index below 0x200000 the byte there is what is read at its LoROM address (bank index/0x8000, offset
0x8000 + index mod 0x8000), at the same address with the mirroring bit set, and at its HiROM address (bank 0x40 +
index/0x10000, offset index mod 0x10000). The window size is the spec's decision D1.
Rests on: 20_memory.md section 2 (ROM index), 92_eei_decisions.md D1. -/
def Obligations.RomByteSeenThroughEveryWindow : Prop :=
  ∀ (s : State) (n : Nat), n < 0x200000 →
    s.memRead (busAddr (BitVec.ofNat 8 (n / 0x8000)) (BitVec.ofNat 16 (0x8000 + n % 0x8000))) = .ok (s.rom.read n) ∧
    s.memRead (busAddr (BitVec.ofNat 8 (0x80 + n / 0x8000)) (BitVec.ofNat 16 (0x8000 + n % 0x8000))) = .ok (s.rom.read n) ∧
    s.memRead (busAddr (BitVec.ofNat 8 (0x40 + n / 0x10000)) (BitVec.ofNat 16 (n % 0x10000))) = .ok (s.rom.read n)

/-- O10. For bank 0x70 or 0x71 and every offset the byte read is RAM[(bank - 0x70) * 0x10000 + offset], and that index is
at most 0x1FFFF.
Rests on: R44. -/
def Obligations.RamBanksReadTheirIndex : Prop :=
  ∀ (s : State) (bank : Byte) (offset : Word), (bank = 0x70 ∨ bank = 0x71) →
    s.memRead (busAddr bank offset) = .ok (s.ram.read ((bank.toNat - 0x70) * 0x10000 + offset.toNat)) ∧
    (bank.toNat - 0x70) * 0x10000 + offset.toNat ≤ 0x1FFFF

/-- O11. If both bytes read, the value is low + 256 * high; if the low byte faults that fault is raised; if the low byte
reads and the high byte faults, the high byte's fault is raised.
Rests on: 20_memory.md section 2 (read16_bus), 20_memory.md section 3. -/
def Obligations.SixteenBitReadIsLittleEndian : Prop :=
  ∀ (s : State) (a : BusAddr),
    (∀ lo hi, s.memRead a = .ok lo → s.memRead (advance a 1) = .ok hi →
      ∃ v, s.memRead16 a = .ok v ∧ v.toNat = lo.toNat + 256 * hi.toNat) ∧
    (∀ f, s.memRead a = .error f → s.memRead16 a = .error f) ∧
    (∀ lo f, s.memRead a = .ok lo → s.memRead (advance a 1) = .error f → s.memRead16 a = .error f)

/-- O12. For every state with SFR bit 5 clear the Tick answers that same state. Reading no-op this strictly is the spec's
decision D26.
Rests on: 40_engine_step.md section 1, 92_eei_decisions.md D26. -/
def Obligations.StoppedTickChangesNothing : Prop :=
  ∀ s : State, s.sfr.getLsbD 5 = false → step s = .next s

/-- O13. If G is set, the bytes from PBR:R15 on (in address-increment order) are bs, and bs decodes under the ALT1 and
ALT2 bits of SFR to an instruction i with nothing left over, then i is well formed and the Tick is exec of i on the
state with R15 one up and nothing else changed: phase 1 is all that the step adds around exec.
Rests on: 40_engine_step.md section 2, 30_encoding.md section 1, notes/assumptions/3.md. -/
def Obligations.StepRunsDecodedInstruction : Prop :=
  ∀ (s : State) (bytes : List Byte) (i : Instr), s.sfr.getLsbD 5 = true →
    s.bytesAt (busAddr s.pbr (s.reg 15)) bytes →
    decode (s.sfr.getLsbD 8) (s.sfr.getLsbD 9) bytes = .ok (i, []) →
    i.wf = true ∧ step s = exec i (s.setReg 15 (s.reg 15 + 1))

/-- O14. A fetched byte leaves R15 one up modulo 65536 and PBR alone. A running Tick that answers a next state leaves PBR
as it was, and R15 one up for every one-byte instruction that does not write R15 as its destination (destination latch
not 15, or an opcode that has no destination register), and three up for IWT to a register other than R15. A fetch
that wrapped to offset 0 in a bank whose low half is unmapped faults. (What R15 holds when it is the destination is in
the instructions' own statements.)
Rests on: R13. -/
def Obligations.ProgramCounterCountsFetchedBytes : Prop :=
  (∀ (s t : State) (b : Byte), s.fetchByte = .ok (b, t) →
    (t.reg 15).toNat = ((s.reg 15).toNat + 1) % 65536 ∧ t.pbr = s.pbr) ∧
  (∀ (s t : State) (op : Byte), s.runsOpcode op → step s = .next t →
    t.pbr = s.pbr ∧
    (op < 0xF0 → (s.dreg ≠ 15 ∨ op < 0x40 ∨ (0xB0 ≤ op ∧ op ≤ 0xBF)) →
      (t.reg 15).toNat = ((s.reg 15).toNat + 1) % 65536) ∧
    (0xF0 ≤ op → op ≠ 0xFF → (t.reg 15).toNat = ((s.reg 15).toNat + 3) % 65536)) ∧
  (∀ s : State, s.sfr.getLsbD 5 = true → s.reg 15 = 0 → (s.pbr ≤ 0x3F ∨ (0x80 ≤ s.pbr ∧ s.pbr ≤ 0xBF)) →
    step s = .fault (.unmappedAddress (busAddr s.pbr 0)))

/-- O15. For every running state: if PBR:R15 is in the unmapped list the Tick is the fault UnmappedAddress(PBR:R15),
whatever the ALT flags; otherwise the opcode byte reads. The list includes banks the spec's decision D2 leaves
unmapped (log 10).
Rests on: 60_exceptions.md section 1, 60_exceptions.md section 2, 92_eei_decisions.md D2. -/
def Obligations.UnmappedOpcodeFetchFaults : Prop :=
  ∀ s : State, s.sfr.getLsbD 5 = true →
    (unmappedRange s.pbr (s.reg 15) → step s = .fault (.unmappedAddress (busAddr s.pbr (s.reg 15)))) ∧
    (¬ unmappedRange s.pbr (s.reg 15) → ∃ op, s.runsOpcode op)

/-- O16. For every running state whose opcode byte is 0xF0..0xFF: if PBR:R15+1 is unmapped the Tick is UnmappedAddress
of it; if that is mapped and PBR:R15+2 is not, it is UnmappedAddress of that; if both are mapped the Tick answers a
next state. That bytes 0xF0..0xFF are IWT under every ALT state is the spec's own decision D3 (log 5), the fetch of
the immediate through R15 its D18 (log 8), the banks that are unmapped its D2 (log 10).
Rests on: 44_iwt.md (IWT), 60_exceptions.md section 2, 92_eei_decisions.md D18, 92_eei_decisions.md D2,
92_eei_decisions.md D3, notes/assumptions/5.md, notes/assumptions/8.md, notes/assumptions/10.md. -/
def Obligations.ImmediateFetchFaultsLowByteFirst : Prop :=
  ∀ (s : State) (op : Byte), s.runsOpcode op → 0xF0 ≤ op →
    (unmappedRange s.pbr (s.reg 15 + 1) → step s = .fault (.unmappedAddress (busAddr s.pbr (s.reg 15 + 1)))) ∧
    (¬ unmappedRange s.pbr (s.reg 15 + 1) → unmappedRange s.pbr (s.reg 15 + 2) →
      step s = .fault (.unmappedAddress (busAddr s.pbr (s.reg 15 + 2)))) ∧
    (¬ unmappedRange s.pbr (s.reg 15 + 1) → ¬ unmappedRange s.pbr (s.reg 15 + 2) → ∃ t, step s = .next t)

/-- O17. For every running state whose opcode byte reads: if the byte and ALT1 are in the spec's list of illegal keys the
Tick is UnimplementedInstruction with the byte and the ALT flags as they stood before the step; if they are not, no
Tick raises that fault. That thirteen instructions ignore the ALT flags is the spec's decision D3 (log 5), that the
fault carries the flags from before the clear is its D25.
Rests on: 30_encoding.md section 4, 60_exceptions.md section 1, 92_eei_decisions.md D3, 92_eei_decisions.md D25. -/
def Obligations.IllegalKeyFaults : Prop :=
  ∀ (s : State) (op : Byte), s.runsOpcode op →
    (illegalKey op (s.sfr.getLsbD 8) →
      step s = .fault (.unimplementedInstruction op (s.sfr.getLsbD 8) (s.sfr.getLsbD 9))) ∧
    (¬ illegalKey op (s.sfr.getLsbD 8) → ∀ o a b, step s ≠ .fault (.unimplementedInstruction o a b))

/-- O18. For every state the Tick answers a next state, or, only while G is set, UnmappedAddress of an unmapped
address among PBR:R15, PBR:R15+1 and PBR:R15+2, or UnimplementedInstruction with the opcode byte at the fetch address
and the ALT flags as they stood before the step. No Tick is refused. That the fault carries the flags from before the
clear is the spec's own decision D25 (log 17), the banks that are unmapped its D2 (log 10).
Rests on: 00_scope.md section 5, 60_exceptions.md section 1, 40_engine_step.md section 4, 92_eei_decisions.md D2,
92_eei_decisions.md D25, notes/assumptions/10.md, notes/assumptions/17.md. -/
def Obligations.EveryTickHasOneOfThreeOutcomes : Prop :=
  ∀ s : State,
    (∃ t, step s = .next t) ∨
    (s.sfr.getLsbD 5 = true ∧ ∃ a, step s = .fault (.unmappedAddress a) ∧ unmappedRange (bankOf a) (offsetOf a) ∧
      (a = busAddr s.pbr (s.reg 15) ∨ a = busAddr s.pbr (s.reg 15 + 1) ∨ a = busAddr s.pbr (s.reg 15 + 2))) ∨
    (∃ op, s.runsOpcode op ∧
      step s = .fault (.unimplementedInstruction op (s.sfr.getLsbD 8) (s.sfr.getLsbD 9)))

/-- O19. For every state STOP answers a next state with SFR bit 5 clear, ALT1 and ALT2 clear and both latches 0. Every
other register, every other SFR bit, the control registers, the cycle counter and every byte of every buffer are
unchanged. A running Tick on opcode byte 0x00, under any ALT state, is STOP on the state with R15 one up. That the row
matches under every ALT state is the spec's decision D3 (log 5).
Rests on: 41_control.md (STOP), 92_eei_decisions.md D3. -/
def Obligations.StopClearsGo : Prop :=
  (∀ s : State, ∃ t, exec .stop s = .next t ∧ t.sfr.getLsbD 5 = false ∧
    AltFlags t false false ∧ Latches t 0 0 ∧ SameRegsBut [] s t ∧ SameSfrBut [5, 8, 9] s t ∧ SameControl s t ∧ SameBuffers s t) ∧
  (∀ s : State, s.runsOpcode 0x00 → step s = exec .stop (s.setReg 15 (s.reg 15 + 1)))

/-- O20. For every state NOP answers a next state with ALT1 and ALT2 clear and both latches 0. Every other register, every
other SFR bit, the control registers, the cycle counter and every byte of every buffer are unchanged. A running Tick
on opcode byte 0x01, under any ALT state, is NOP on the state with R15 one up. That the row matches under every ALT
state is the spec's decision D3 (log 5).
Rests on: 41_control.md (NOP), 92_eei_decisions.md D3. -/
def Obligations.NopOnlyConsumesStickyState : Prop :=
  (∀ s : State, ∃ t, exec .nop s = .next t ∧
    AltFlags t false false ∧ Latches t 0 0 ∧ SameRegsBut [] s t ∧ SameSfrBut [8, 9] s t ∧ SameControl s t ∧ SameBuffers s t) ∧
  (∀ s : State, s.runsOpcode 0x01 → step s = exec .nop (s.setReg 15 (s.reg 15 + 1)))

/-- O21. For every n in 0..15 and every state: TO Rn loads DREG with n, leaves SREG 0, ALT1 and ALT2 are clear afterwards.
Every other register, every other SFR bit, the control registers, the cycle counter and every byte of every buffer are
unchanged. A running Tick on opcode byte 0x10 + n, under any ALT state, is that instruction on the state with R15 one
up. That the row matches under every ALT state is the spec's decision D3 (log 5).
Rests on: 42_prefix_select.md section 1 (TO), 92_eei_decisions.md D3. -/
def Obligations.ToSelectsDestination : Prop :=
  (∀ (n : RegIdx) (s : State), ∃ t, exec (.toR n) s = .next t ∧
    AltFlags t false false ∧ Latches t 0 n ∧ SameRegsBut [] s t ∧ SameSfrBut [8, 9] s t ∧ SameControl s t ∧ SameBuffers s t) ∧
  (∀ (n : RegIdx) (s : State), s.runsOpcode (BitVec.ofNat 8 (0x10 + n.val)) →
    step s = exec (.toR n) (s.setReg 15 (s.reg 15 + 1)))

/-- O22. For every n in 0..15 and every state: WITH Rn loads both latches with n, ALT1 and ALT2 are clear afterwards.
Every other register, every other SFR bit, the control registers, the cycle counter and every byte of every buffer are
unchanged. B in particular (SFR bit 12) is unchanged, the spec's decision D13. A running Tick on opcode byte 0x20 + n,
under any ALT state, is that instruction on the state with R15 one up. That the row matches under every ALT state is
the spec's decision D3 (log 5).
Rests on: 42_prefix_select.md section 1 (WITH), 92_eei_decisions.md D3, 92_eei_decisions.md D13. -/
def Obligations.WithSelectsBoth : Prop :=
  (∀ (n : RegIdx) (s : State), ∃ t, exec (.withR n) s = .next t ∧
    AltFlags t false false ∧ Latches t n n ∧ SameRegsBut [] s t ∧ SameSfrBut [8, 9] s t ∧ SameControl s t ∧ SameBuffers s t) ∧
  (∀ (n : RegIdx) (s : State), s.runsOpcode (BitVec.ofNat 8 (0x20 + n.val)) →
    step s = exec (.withR n) (s.setReg 15 (s.reg 15 + 1)))

/-- O23. For every n in 0..15 and every state: FROM Rn loads SREG with n, leaves DREG 0, ALT1 and ALT2 are clear
afterwards. Every other register, every other SFR bit, the control registers, the cycle counter and every byte of
every buffer are unchanged. A running Tick on opcode byte 0xB0 + n, under any ALT state, is that instruction on the
state with R15 one up. That the row matches under every ALT state is the spec's decision D3 (log 5).
Rests on: 42_prefix_select.md section 1 (FROM), 92_eei_decisions.md D3. -/
def Obligations.FromSelectsSource : Prop :=
  (∀ (n : RegIdx) (s : State), ∃ t, exec (.fromR n) s = .next t ∧
    AltFlags t false false ∧ Latches t n 0 ∧ SameRegsBut [] s t ∧ SameSfrBut [8, 9] s t ∧ SameControl s t ∧ SameBuffers s t) ∧
  (∀ (n : RegIdx) (s : State), s.runsOpcode (BitVec.ofNat 8 (0xB0 + n.val)) →
    step s = exec (.fromR n) (s.setReg 15 (s.reg 15 + 1)))

/-- O24. For every state ALT1 leaves ALT1 set and ALT2 clear, whatever they were, and SREG and DREG hold what they held
before. Every other register, every other SFR bit, the control registers, the cycle counter and every byte of every
buffer are unchanged. A running Tick on opcode byte 0x3D, under any ALT state, is that prefix on the state with R15
one up. That the row matches under every ALT state is the spec's decision D3 (log 5).
Rests on: 42_prefix_select.md section 2 (ALT1), 92_eei_decisions.md D3. -/
def Obligations.Alt1SetsAlt1Only : Prop :=
  (∀ s : State, ∃ t, exec .alt1 s = .next t ∧
    AltFlags t true false ∧ Latches t s.sreg s.dreg ∧ SameRegsBut [] s t ∧ SameSfrBut [8, 9] s t ∧ SameControl s t ∧ SameBuffers s t) ∧
  (∀ s : State, s.runsOpcode 0x3D → step s = exec .alt1 (s.setReg 15 (s.reg 15 + 1)))

/-- O25. For every state ALT2 leaves ALT2 set and ALT1 clear, whatever they were, and SREG and DREG hold what they held
before. Every other register, every other SFR bit, the control registers, the cycle counter and every byte of every
buffer are unchanged. A running Tick on opcode byte 0x3E, under any ALT state, is that prefix on the state with R15
one up. That the row matches under every ALT state is the spec's decision D3 (log 5).
Rests on: 42_prefix_select.md section 2 (ALT2), 92_eei_decisions.md D3. -/
def Obligations.Alt2SetsAlt2Only : Prop :=
  (∀ s : State, ∃ t, exec .alt2 s = .next t ∧
    AltFlags t false true ∧ Latches t s.sreg s.dreg ∧ SameRegsBut [] s t ∧ SameSfrBut [8, 9] s t ∧ SameControl s t ∧ SameBuffers s t) ∧
  (∀ s : State, s.runsOpcode 0x3E → step s = exec .alt2 (s.setReg 15 (s.reg 15 + 1)))

/-- O26. For every state ALT3 leaves ALT1 and ALT2 set, whatever they were, and SREG and DREG hold what they held before.
Every other register, every other SFR bit, the control registers, the cycle counter and every byte of every buffer are
unchanged. A running Tick on opcode byte 0x3F, under any ALT state, is that prefix on the state with R15 one up. That
the row matches under every ALT state is the spec's decision D3 (log 5).
Rests on: 42_prefix_select.md section 2 (ALT3), 92_eei_decisions.md D3. -/
def Obligations.Alt3SetsBoth : Prop :=
  (∀ s : State, ∃ t, exec .alt3 s = .next t ∧
    AltFlags t true true ∧ Latches t s.sreg s.dreg ∧ SameRegsBut [] s t ∧ SameSfrBut [8, 9] s t ∧ SameControl s t ∧ SameBuffers s t) ∧
  (∀ s : State, s.runsOpcode 0x3F → step s = exec .alt3 (s.setReg 15 (s.reg 15 + 1)))

/-- O27. For every state NOT answers a next state with R[DREG] = ~R[SREG], Z (bit 1) set iff the result is 0, S (bit 3)
its bit 15. The destination is R[DREG], R15 included, where it is a jump; the operands are the values before the
write; ALT1 and ALT2 are clear and both latches 0 afterwards; every other register, every other SFR bit, the control
registers, the cycle counter and every byte of every buffer are unchanged. A running Tick on opcode byte 0x4F, under
any ALT state, is NOT on the state with R15 one up. That the row matches under every ALT state is the spec's decision
D3 (log 5).
Rests on: 43_alu.md section 2 (NOT), 92_eei_decisions.md D3. -/
def Obligations.NotComplementsSource : Prop :=
  (∀ (s : State), ∃ t, exec .notR s = .next t ∧
    t.reg s.dreg = ~~~ s.reg s.sreg ∧
    t.sfr.getLsbD 1 = (~~~ s.reg s.sreg == 0) ∧ t.sfr.getLsbD 3 = !(s.reg s.sreg).getLsbD 15 ∧
    AltFlags t false false ∧ Latches t 0 0 ∧ SameRegsBut [s.dreg] s t ∧ SameSfrBut [1, 3, 8, 9] s t ∧ SameControl s t ∧
    SameBuffers s t) ∧
  (∀ s : State, s.runsOpcode 0x4F → step s = exec .notR (s.setReg 15 (s.reg 15 + 1)))

/-- O28. For every state MERGE answers a next state with R[DREG] = (high byte of R7) ++ (high byte of R8), S set iff
either byte is at least 0x80, OV iff either is at least 0x40, C iff either is at least 0x20, Z iff either is at least
0x10, which are the four mask tests 0x8080, 0xC0C0, 0xE0E0, 0xF0F0; SREG is not used. The result's form and
destination are the spec's decision D4, the flags' pairing and polarity (Z included) its D5 (log 6). The destination
is R[DREG], R15 included, where it is a jump; the operands are the values before the write; ALT1 and ALT2 are clear
and both latches 0 afterwards; every other register, every other SFR bit, the control registers, the cycle counter and
every byte of every buffer are unchanged. A running Tick on opcode byte 0x70, under any ALT state, is MERGE on the
state with R15 one up. That the row matches under every ALT state is the spec's decision D3 (log 5).
Rests on: 43_alu.md section 2 (MERGE), 92_eei_decisions.md D4, 92_eei_decisions.md D5, 92_eei_decisions.md D3. -/
def Obligations.MergePacksHighBytes : Prop :=
  (∀ (s : State), ∃ t, exec .merge s = .next t ∧
    t.reg s.dreg = (s.reg 7).extractLsb' 8 8 ++ (s.reg 8).extractLsb' 8 8 ∧
    t.sfr.getLsbD 3 = (decide (0x80#8 ≤ (s.reg 7).extractLsb' 8 8) || decide (0x80#8 ≤ (s.reg 8).extractLsb' 8 8)) ∧
    t.sfr.getLsbD 4 = (decide (0x40#8 ≤ (s.reg 7).extractLsb' 8 8) || decide (0x40#8 ≤ (s.reg 8).extractLsb' 8 8)) ∧
    t.sfr.getLsbD 2 = (decide (0x20#8 ≤ (s.reg 7).extractLsb' 8 8) || decide (0x20#8 ≤ (s.reg 8).extractLsb' 8 8)) ∧
    t.sfr.getLsbD 1 = (decide (0x10#8 ≤ (s.reg 7).extractLsb' 8 8) || decide (0x10#8 ≤ (s.reg 8).extractLsb' 8 8)) ∧
    AltFlags t false false ∧ Latches t 0 0 ∧ SameRegsBut [s.dreg] s t ∧ SameSfrBut [1, 2, 3, 4, 8, 9] s t ∧ SameControl s t ∧
    SameBuffers s t) ∧
  (∀ s : State, s.runsOpcode 0x70 → step s = exec .merge (s.setReg 15 (s.reg 15 + 1)))

/-- O29. For every n and every state AND Rn answers a next state with R[DREG] = R[SREG] & R[n], Z (bit 1) set iff the
result is 0, S (bit 3) its bit 15. That Z and S come from the 16-bit result is the spec's decision D6 (log 7). The
destination is R[DREG], R15 included, where it is a jump; the operands are the values before the write; ALT1 and ALT2
are clear and both latches 0 afterwards; every other register, every other SFR bit, the control registers, the cycle
counter and every byte of every buffer are unchanged. A running Tick on opcode byte 0x70 + n, n in 1..15 (n = 0 is
another instruction), with ALT1 clear and ALT2 clear, is that instruction on the state with R15 one up.
Rests on: 43_alu.md section 2 (AND register), 92_eei_decisions.md D6. -/
def Obligations.AndRegisterMasksSource : Prop :=
  (∀ (n : RegIdx) (s : State), ∃ t, exec (.andR n) s = .next t ∧
    t.reg s.dreg = s.reg s.sreg &&& s.reg n ∧
    t.sfr.getLsbD 1 = (s.reg s.sreg &&& s.reg n == 0) ∧ t.sfr.getLsbD 3 = (s.reg s.sreg &&& s.reg n).getLsbD 15 ∧
    AltFlags t false false ∧ Latches t 0 0 ∧ SameRegsBut [s.dreg] s t ∧ SameSfrBut [1, 3, 8, 9] s t ∧ SameControl s t ∧
    SameBuffers s t) ∧
  (∀ (n : RegIdx) (s : State), n ≠ 0 → s.sfr.getLsbD 8 = false → s.sfr.getLsbD 9 = false →
    s.runsOpcode (BitVec.ofNat 8 (0x70 + n.val)) → step s = exec (.andR n) (s.setReg 15 (s.reg 15 + 1)))

/-- O30. For every n and every state XOR Rn answers a next state with R[DREG] = R[SREG] ^ R[n], Z (bit 1) set iff the
result is 0, S (bit 3) its bit 15. That Z and S come from the 16-bit result is the spec's decision D6 (log 7). The
destination is R[DREG], R15 included, where it is a jump; the operands are the values before the write; ALT1 and ALT2
are clear and both latches 0 afterwards; every other register, every other SFR bit, the control registers, the cycle
counter and every byte of every buffer are unchanged. A running Tick on opcode byte 0xC0 + n, n in 1..15 (n = 0 is
another instruction), with ALT1 set and ALT2 clear, is that instruction on the state with R15 one up.
Rests on: 43_alu.md section 2 (XOR register), 92_eei_decisions.md D6. -/
def Obligations.XorRegisterTogglesSource : Prop :=
  (∀ (n : RegIdx) (s : State), ∃ t, exec (.xorR n) s = .next t ∧
    t.reg s.dreg = s.reg s.sreg ^^^ s.reg n ∧
    t.sfr.getLsbD 1 = (s.reg s.sreg ^^^ s.reg n == 0) ∧ t.sfr.getLsbD 3 = (s.reg s.sreg ^^^ s.reg n).getLsbD 15 ∧
    AltFlags t false false ∧ Latches t 0 0 ∧ SameRegsBut [s.dreg] s t ∧ SameSfrBut [1, 3, 8, 9] s t ∧ SameControl s t ∧
    SameBuffers s t) ∧
  (∀ (n : RegIdx) (s : State), n ≠ 0 → s.sfr.getLsbD 8 = true → s.sfr.getLsbD 9 = false →
    s.runsOpcode (BitVec.ofNat 8 (0xC0 + n.val)) → step s = exec (.xorR n) (s.setReg 15 (s.reg 15 + 1)))

/-- O31. For every 4-bit n and every state AND #n answers a next state with R[DREG] = R[SREG] & n (n zero-extended, the
spec's decision D20), Z (bit 1) set iff the result is 0, S (bit 3) clear. That Z and S come from the 16-bit result is
the spec's decision D6 (log 7). The destination is R[DREG], R15 included, where it is a jump; the operands are the
values before the write; ALT1 and ALT2 are clear and both latches 0 afterwards; every other register, every other SFR
bit, the control registers, the cycle counter and every byte of every buffer are unchanged. A running Tick on opcode
byte 0x70 + n, n in 1..15 (n = 0 is MERGE), with ALT1 clear and ALT2 set, is that instruction on the state with R15
one up.
Rests on: 43_alu.md section 2 (AND immediate), 92_eei_decisions.md D6, 92_eei_decisions.md D20. -/
def Obligations.AndImmediateMasksSource : Prop :=
  (∀ (n : Nibble) (s : State), ∃ t, exec (.andI n) s = .next t ∧
    t.reg s.dreg = s.reg s.sreg &&& BitVec.ofNat 16 n.toNat ∧
    t.sfr.getLsbD 1 = (s.reg s.sreg &&& BitVec.ofNat 16 n.toNat == 0) ∧ t.sfr.getLsbD 3 = false ∧
    AltFlags t false false ∧ Latches t 0 0 ∧ SameRegsBut [s.dreg] s t ∧ SameSfrBut [1, 3, 8, 9] s t ∧ SameControl s t ∧
    SameBuffers s t) ∧
  (∀ (n : Nibble) (s : State), n ≠ 0 → s.sfr.getLsbD 8 = false → s.sfr.getLsbD 9 = true →
    s.runsOpcode (BitVec.ofNat 8 (0x70 + n.toNat)) → step s = exec (.andI n) (s.setReg 15 (s.reg 15 + 1)))

/-- O32. For every 4-bit n and every state XOR #n answers a next state with R[DREG] = R[SREG] ^ n (n zero-extended, the
spec's decision D20), Z (bit 1) set iff R[SREG] = n, S (bit 3) the source's bit 15. That Z and S come from the 16-bit
result is the spec's decision D6 (log 7). The destination is R[DREG], R15 included, where it is a jump; the operands
are the values before the write; ALT1 and ALT2 are clear and both latches 0 afterwards; every other register, every
other SFR bit, the control registers, the cycle counter and every byte of every buffer are unchanged. A running Tick
on opcode byte 0xC0 + n, n in 1..15 (n = 0 is HIB), with ALT1 and ALT2 set, is that instruction on the state with R15
one up.
Rests on: 43_alu.md section 2 (XOR immediate), 92_eei_decisions.md D6, 92_eei_decisions.md D20. -/
def Obligations.XorImmediateTogglesSource : Prop :=
  (∀ (n : Nibble) (s : State), ∃ t, exec (.xorI n) s = .next t ∧
    t.reg s.dreg = s.reg s.sreg ^^^ BitVec.ofNat 16 n.toNat ∧
    t.sfr.getLsbD 1 = (s.reg s.sreg == BitVec.ofNat 16 n.toNat) ∧ t.sfr.getLsbD 3 = (s.reg s.sreg).getLsbD 15 ∧
    AltFlags t false false ∧ Latches t 0 0 ∧ SameRegsBut [s.dreg] s t ∧ SameSfrBut [1, 3, 8, 9] s t ∧ SameControl s t ∧
    SameBuffers s t) ∧
  (∀ (n : Nibble) (s : State), n ≠ 0 → s.sfr.getLsbD 8 = true → s.sfr.getLsbD 9 = true →
    s.runsOpcode (BitVec.ofNat 8 (0xC0 + n.toNat)) → step s = exec (.xorI n) (s.setReg 15 (s.reg 15 + 1)))

/-- O33. For every state SEX answers a next state whose R[DREG] has the low byte of R[SREG] in bits 7:0 and bit 7 of
R[SREG] in each of bits 15:8, Z (bit 1) set iff that low byte is 0, S (bit 3) bit 7 of R[SREG]. The destination is the
spec's decision D19. That Z and S come from the 16-bit result is the spec's decision D6 (log 7). The destination is
R[DREG], R15 included, where it is a jump; the operands are the values before the write; ALT1 and ALT2 are clear and
both latches 0 afterwards; every other register, every other SFR bit, the control registers, the cycle counter and
every byte of every buffer are unchanged. A running Tick on opcode byte 0x95, under any ALT state, is SEX on the state
with R15 one up. That the row matches under every ALT state is the spec's decision D3 (log 5).
Rests on: 43_alu.md section 2 (SEX), 92_eei_decisions.md D19, 92_eei_decisions.md D6, 92_eei_decisions.md D3. -/
def Obligations.SexExtendsLowByte : Prop :=
  (∀ (s : State), ∃ t, exec .sex s = .next t ∧
    (∀ k, k < 8 → (t.reg s.dreg).getLsbD k = (s.reg s.sreg).getLsbD k) ∧
    (∀ k, 8 ≤ k → k < 16 → (t.reg s.dreg).getLsbD k = (s.reg s.sreg).getLsbD 7) ∧
    t.sfr.getLsbD 1 = ((s.reg s.sreg).extractLsb' 0 8 == 0) ∧ t.sfr.getLsbD 3 = (s.reg s.sreg).getLsbD 7 ∧
    AltFlags t false false ∧ Latches t 0 0 ∧ SameRegsBut [s.dreg] s t ∧ SameSfrBut [1, 3, 8, 9] s t ∧ SameControl s t ∧
    SameBuffers s t) ∧
  (∀ s : State, s.runsOpcode 0x95 → step s = exec .sex (s.setReg 15 (s.reg 15 + 1)))

/-- O34. For every state HIB answers a next state with R[DREG] = R[SREG] / 256 as a number (a logical shift, the spec's
decision D7, log 7), Z (bit 1) set iff the high byte of R[SREG] is 0, S (bit 3) bit 15 of R[SREG], which is bit 7 of
the byte. The destination is R[DREG], R15 included, where it is a jump; the operands are the values before the write;
ALT1 and ALT2 are clear and both latches 0 afterwards; every other register, every other SFR bit, the control
registers, the cycle counter and every byte of every buffer are unchanged. A running Tick on opcode byte 0xC0, under
any ALT state, is HIB on the state with R15 one up. That the row matches under every ALT state is the spec's decision
D3 (log 5).
Rests on: 43_alu.md section 2 (HIB), 92_eei_decisions.md D7, 90_conflicts.md C3, 92_eei_decisions.md D3. -/
def Obligations.HibTakesHighByte : Prop :=
  (∀ (s : State), ∃ t, exec .hib s = .next t ∧
    (t.reg s.dreg).toNat = (s.reg s.sreg).toNat / 256 ∧
    t.sfr.getLsbD 1 = ((s.reg s.sreg).extractLsb' 8 8 == 0) ∧ t.sfr.getLsbD 3 = (s.reg s.sreg).getLsbD 15 ∧
    AltFlags t false false ∧ Latches t 0 0 ∧ SameRegsBut [s.dreg] s t ∧ SameSfrBut [1, 3, 8, 9] s t ∧ SameControl s t ∧
    SameBuffers s t) ∧
  (∀ s : State, s.runsOpcode 0xC0 → step s = exec .hib (s.setReg 15 (s.reg 15 + 1)))

/-- O35. For every n, immediate and state IWT answers a next state with R[n] = imm, and R15 two up (past the immediate)
when n is not 15; ALT1 and ALT2 are clear and both latches 0; every other register, every other SFR bit (all flags),
the control registers, the cycle counter and every buffer byte are unchanged. A running Tick on opcode byte 0xF0 + n,
under any ALT state, whose next two bytes read lo and hi, is IWT Rn with hi ++ lo on the state with R15 one up. The
fetch of the immediate through R15 and the order of the writes are the spec's decision D18 (log 8). That the row
matches under every ALT state is the spec's decision D3 (log 5).
Rests on: 44_iwt.md (IWT), 92_eei_decisions.md D18, 92_eei_decisions.md D3. -/
def Obligations.IwtLoadsImmediateOrJumps : Prop :=
  (∀ (n : RegIdx) (imm : Word) (s : State), ∃ t, exec (.iwt n imm) s = .next t ∧
    t.reg n = imm ∧ (n ≠ 15 → (t.reg 15).toNat = ((s.reg 15).toNat + 2) % 65536) ∧
    AltFlags t false false ∧ Latches t 0 0 ∧ SameRegsBut [n, 15] s t ∧ SameSfrBut [8, 9] s t ∧ SameControl s t ∧
    SameBuffers s t) ∧
  (∀ (n : RegIdx) (lo hi : Byte) (s : State), s.runsOpcode (BitVec.ofNat 8 (0xF0 + n.val)) →
    s.memRead (busAddr s.pbr (s.reg 15 + 1)) = .ok lo → s.memRead (busAddr s.pbr (s.reg 15 + 2)) = .ok hi →
    step s = exec (.iwt n (hi ++ lo)) (s.setReg 15 (s.reg 15 + 1)))

/-- O36. After phases 2 and 3 both latches are 0. For every instruction and every state execution answers a next state
whose SREG and DREG are: as before for ALT1, ALT2, ALT3; 0 and n for TO; n and 0 for FROM; n and n for WITH; 0 and 0
for every other instruction.
Rests on: R95. -/
def Obligations.LatchesAfterEachInstructionClass : Prop :=
  (∀ s : State, Latches s.consumeSticky 0 0) ∧ ∀ (i : Instr) (s : State), ∃ t, exec i s = .next t ∧
    match i with
    | .alt1 | .alt2 | .alt3 => Latches t s.sreg s.dreg
    | .toR n => Latches t 0 n
    | .fromR n => Latches t n 0
    | .withR n => Latches t n n
    | .stop | .nop | .notR | .merge | .andR _ | .andI _ | .sex | .hib | .xorR _ | .xorI _ | .iwt _ _ => Latches t 0 0

/-- O37. For every instruction and every state execution answers a next state in which ALT1 is set iff the instruction is
ALT1 or ALT3 and ALT2 is set iff it is ALT2 or ALT3: flags never accumulate and never outlive the next instruction. So
both are set only after ALT3.
Rests on: 40_engine_step.md section 2 (phase 2), 30_encoding.md section 3, 90_conflicts.md C7. -/
def Obligations.AltFlagsLastOneInstruction : Prop :=
  ∀ (i : Instr) (s : State), ∃ t, exec i s = .next t ∧
    AltFlags t (decide (i = .alt1 ∨ i = .alt3)) (decide (i = .alt2 ∨ i = .alt3))

/-- O38. For every state whose Tick answers a next state: the nine control registers and the cycle counter, every byte of
ROM, RAM and cache, and SFR bits 15, 14, 13, 12, 11, 10, 7, 6 and 0 are as before (plain storage by the spec's
decisions D12, D13, D14, D16; logs 9, 10).
Rests on: 10_state.md section 3, 10_state.md section 4, 10_state.md section 6, 92_eei_decisions.md D12,
92_eei_decisions.md D13, 92_eei_decisions.md D14, 92_eei_decisions.md D16. -/
def Obligations.TickKeepsInertState : Prop :=
  ∀ s t : State, step s = .next t →
    SameControl s t ∧ SameBuffers s t ∧ SameSfrBut [1, 2, 3, 4, 5, 8, 9] s t

/-- O39. For every state whose Tick answers a next state, SFR bit 5 is as before, or it was set, the opcode byte at
the fetch address was 0x00, and it is now clear; and STOP always clears it. That byte 0x00 is STOP under every ALT
state is the spec's own decision D3 (log 5).
Rests on: 10_state.md section 3 (flag G), 60_exceptions.md section 5 (Power and wait states), 41_control.md (STOP),
92_eei_decisions.md D3, notes/assumptions/5.md. -/
def Obligations.OnlyStopClearsGo : Prop :=
  (∀ s t : State, step s = .next t → t.sfr.getLsbD 5 ≠ s.sfr.getLsbD 5 → s.runsOpcode 0x00 ∧ t.sfr.getLsbD 5 = false) ∧
  (∀ s : State, s.runsOpcode 0x00 → ∃ t, step s = .next t ∧ t.sfr.getLsbD 5 = false)

/-- O40. For every state whose Tick answers a next state: if C (bit 2) or OV (bit 4) changed, the opcode byte was 0x70; if
Z (bit 1) or S (bit 3) changed, the opcode byte was 0x4F, 0x95, or in 0x70-0x7F or 0xC0-0xCF.
Rests on: 10_state.md section 3 (flags), 43_alu.md section 1. -/
def Obligations.OnlyMergeWritesCarryAndOverflow : Prop :=
  ∀ s t : State, step s = .next t →
    ((t.sfr.getLsbD 2 ≠ s.sfr.getLsbD 2 ∨ t.sfr.getLsbD 4 ≠ s.sfr.getLsbD 4) → s.runsOpcode 0x70) ∧
    ((t.sfr.getLsbD 1 ≠ s.sfr.getLsbD 1 ∨ t.sfr.getLsbD 3 ≠ s.sfr.getLsbD 3) →
      ∃ op, s.runsOpcode op ∧
        (op = 0x4F ∨ op = 0x95 ∨ (0x70 ≤ op ∧ op ≤ 0x7F) ∨ (0xC0 ≤ op ∧ op ≤ 0xCF)))

/-- O41. If two states agree on R0..R15, SFR, PBR, the latches, the ROM window and the lower half of RAM (they may differ
in the eight other control registers, the cycle counter, the cache and the upper half of RAM), then a Tick of one
answers a next state iff the other's does and these agree in the same sense, and a Tick of one faults iff the other's
does, with the same fault.
Rests on: 10_state.md section 4, 20_memory.md section 2, 92_eei_decisions.md D13, 92_eei_decisions.md D14,
92_eei_decisions.md D16. -/
def Obligations.InertStateNeverInfluencesATick : Prop :=
  ∀ s t : State, SameForEngine s t →
    (∀ s', step s = .next s' → ∃ t', step t = .next t' ∧ SameForEngine s' t') ∧
    (∀ t', step t = .next t' → ∃ s', step s = .next s' ∧ SameForEngine s' t') ∧
    (∀ f, step s = .fault f ↔ step t = .fault f)

/-- O42. For every state that meets the invariant and whose Tick answers a next state, that state meets it: each buffer is
in canonical form and inside its size, and SREG is 0, or DREG is 0, or they are equal (only WITH loads two latches,
and prefixes keep what they find).
Rests on: 40_engine_step.md section 4, 42_prefix_select.md section 1, 10_state.md section 6, notes/assumptions/11.md. -/
def Obligations.TickKeepsInvariant : Prop :=
  ∀ s t : State, Invariant s → step s = .next t → Invariant t

/-- O43. The invariant holds of the reset state, and of every state that construction from an image gives.
Rests on: 10_state.md section 7 (Reset values), 92_eei_decisions.md D9, notes/assumptions/11.md. -/
def Obligations.ResetMeetsInvariant : Prop :=
  Invariant State.reset ∧ ∀ image s, construct image = some s → Invariant s

/-- O44. For every well-formed instruction, every operand value, every pair of ALT flags its row admits and every
continuation, decoding its encoded bytes answers that instruction and exactly the continuation.
Rests on: 30_encoding.md section 1, 30_encoding.md section 2, 92_eei_decisions.md D3. -/
def Obligations.DecodeOfEncodeIsIdentity : Prop :=
  ∀ (i : Instr) (alt1 alt2 : Bool) (rest : List Byte), i.wf = true → i.admitsAlt alt1 alt2 = true →
    decode alt1 alt2 (encode i ++ rest) = .ok (i, rest)

/-- O45. If bytes decode under an ALT state to an instruction with a rest, then the instruction is well formed, its row
admits that ALT state, and the bytes are its encoding followed by the rest.
Rests on: 30_encoding.md section 2, 30_encoding.md section 4. -/
def Obligations.DecodedBytesAreTheEncoding : Prop :=
  ∀ (alt1 alt2 : Bool) (bytes rest : List Byte) (i : Instr), decode alt1 alt2 bytes = .ok (i, rest) →
    i.wf = true ∧ i.admitsAlt alt1 alt2 = true ∧ bytes = encode i ++ rest

/-- O46. One word of each of the seventeen instructions, and two illegal keys, written out bit by bit from the spec's
encoding, decode as the spec says. Nine of them (STOP, NOP, TO, FROM, ALT2, ALT3, NOT, MERGE, HIB) are decoded with an
ALT flag set, which their rows ignore by the spec's own decision D3 (log 5).
Rests on: 30_encoding.md section 2, 95_test_vectors.md section 2.4, 92_eei_decisions.md D3, notes/assumptions/5.md. -/
def Obligations.SpecWordsDecode : Prop :=
  decode true true [0b00000000] = .ok (.stop, []) ∧ decode false true [0b00000001] = .ok (.nop, []) ∧
  decode true false [0b00011111] = .ok (.toR 15, []) ∧ decode false false [0b00101010] = .ok (.withR 10, []) ∧
  decode false true [0b10111111] = .ok (.fromR 15, []) ∧ decode false false [0b00111101] = .ok (.alt1, []) ∧
  decode true false [0b00111110] = .ok (.alt2, []) ∧ decode true true [0b00111111] = .ok (.alt3, []) ∧
  decode true false [0b01001111] = .ok (.notR, []) ∧ decode true true [0b01110000] = .ok (.merge, []) ∧
  decode false false [0b01110001] = .ok (.andR 1, []) ∧ decode false true [0b01110001] = .ok (.andI 1, []) ∧
  decode false false [0b10010101] = .ok (.sex, []) ∧ decode true false [0b11000000] = .ok (.hib, []) ∧
  decode true false [0b11001111] = .ok (.xorR 15, []) ∧ decode true true [0b11000001] = .ok (.xorI 1, []) ∧
  decode false false [0b11110000, 0b00010010, 0b00110100] = .ok (.iwt 0 0x3412, []) ∧
  decode true false [0b01110001] = .error (.illegal 0x71 true false) ∧
  decode false true [0b11000001] = .error (.illegal 0xC1 false true)

/-- O47. For every state with canonical buffers (log 11) and every table word that decodes to an instruction i: after
withFetchWord G is set, the buffers are canonical, and the Tick is exec of i on that state with R15 one up.
withFetchWord is the model's own stand-in for construction and launch (log 1, log 2).
Rests on: 70_reset_and_hazards.md section 3, notes/assumptions/1.md, notes/assumptions/2.md, notes/assumptions/11.md.
-/
def Obligations.PlacedInstructionRunsNext : Prop :=
  ∀ (s : State) (nbits w : Nat) (i : Instr), BuffersOk s → decodeTableWord nbits w = some i →
    (s.withFetchWord nbits w).sfr.getLsbD 5 = true ∧ BuffersOk (s.withFetchWord nbits w) ∧
    step (s.withFetchWord nbits w) =
      exec i ((s.withFetchWord nbits w).setReg 15 ((s.withFetchWord nbits w).reg 15 + 1))

/-- O48. For every state: the host's write_flags of G to 1 sets SFR bit 5, and the next Tick is exactly one step, at
the fetch address PBR:R15 the state had; write_flags of G to 0 clears it, and the next Tick is a no-op; neither
changes R0..R15, any other SFR bit (ALT flags included), the latches, a control register, the cycle counter or a
buffer byte. That a host access does nothing else is the spec's own decision D11 (log 12), that a stopped Tick is
strictly a no-op its D26 (log 17).
Rests on: 70_reset_and_hazards.md section 2, 92_eei_decisions.md D11, 92_eei_decisions.md D26,
notes/assumptions/12.md, notes/assumptions/17.md. -/
def Obligations.HostStartsAndStopsByG : Prop :=
  ∀ s : State,
    (∃ t, drive s (.writeFlags [(.g, true)]) = .done t ∧ t.sfr.getLsbD 5 = true ∧ step t = runStep t ∧
      t.fetchAddr = busAddr s.pbr (s.reg 15) ∧
      SameRegsBut [] s t ∧ SameSfrBut [5] s t ∧ Latches t s.sreg s.dreg ∧ SameControl s t ∧ SameBuffers s t) ∧
    (∃ t, drive s (.writeFlags [(.g, false)]) = .done t ∧ t.sfr.getLsbD 5 = false ∧ step t = .next t ∧
      SameRegsBut [] s t ∧ SameSfrBut [5] s t ∧ Latches t s.sreg s.dreg ∧ SameControl s t ∧ SameBuffers s t)

/-- O49. For every state, register and value: if the value fits the register's width the write completes, the register
reads back the value, every other register reads as before, and latches, cycle counter and buffers are as before; if
it does not fit, the outcome is the contract violation. A host write_flags completes, changes SFR to the flag list's
update of it, and likewise changes nothing else. That a host access has no side effect is the spec's own decision D11,
the form of the contract violation its D17 (log 12).
Rests on: 70_reset_and_hazards.md section 2, 92_eei_decisions.md D11, 92_eei_decisions.md D17,
notes/assumptions/12.md. -/
def Obligations.HostRegisterAccessHasNoSideEffect : Prop :=
  (∀ (s : State) (id : RegId) (v : Word),
    (v.toNat < 2 ^ regWidth id → ∃ t, drive s (.writeReg id v) = .done t ∧ t.readReg id = v ∧
      (∀ id', id' ≠ id → t.readReg id' = s.readReg id') ∧ Latches t s.sreg s.dreg ∧ t.cycles = s.cycles ∧
      t.rom = s.rom ∧ t.ram = s.ram ∧ t.cache = s.cache) ∧
    (2 ^ regWidth id ≤ v.toNat → drive s (.writeReg id v) = .contractViolation (.tooWide id v))) ∧
  (∀ (s : State) (l : List (Flag × Bool)), ∃ t, drive s (.writeFlags l) = .done t ∧
    t.sfr = writeFlagList s.sfr l ∧ (∀ id', id' ≠ .sfr → t.readReg id' = s.readReg id') ∧ Latches t s.sreg s.dreg ∧
    t.cycles = s.cycles ∧ t.rom = s.rom ∧ t.ram = s.ram ∧ t.cache = s.cache)

/-- O50. A snapshot is the whole state and changes nothing; running any sequence of driver actions from
Restore(Snapshot(x)) gives the outcome of running it from x; and every driver action other than Restore that
completes, Ticks included, leaves every byte of the three buffers as it was. That these actions are the whole
interface is the spec's own decision D11 (log 12), that nothing but Restore changes a buffer after construction its
D12 (log 10).
Rests on: 70_reset_and_hazards.md section 2, 92_eei_decisions.md D11, 92_eei_decisions.md D12,
notes/assumptions/10.md, notes/assumptions/12.md. -/
def Obligations.OnlyRestoreChangesBuffers : Prop :=
  (∀ s : State, s.snapshot = s) ∧
  (∀ (s x : State) (w : List DriverAction), driveAll (s.restore x.snapshot) w = driveAll x w) ∧
  (∀ (s t : State) (a : DriverAction), drive s a = .done t → (∀ snap, a ≠ .restore snap) →
    t.rom = s.rom ∧ t.ram = s.ram ∧ t.cache = s.cache)

/-- O51. From reset with only G set the Tick is UnmappedAddress(0x000000). For every state constructed from a non-empty
image, after PBR <- 0, R15 <- 0x8000, G <- 1 the engine runs with the image's first byte as its opcode byte. That the
host launches this way is the spec's decision D10 (log 1).
Rests on: 70_reset_and_hazards.md section 3, 92_eei_decisions.md D10, 90_conflicts.md C1. -/
def Obligations.LaunchMakesTheFirstTickFetch : Prop :=
  step (State.reset.writeFlags [(.g, true)]) = .fault (.unmappedAddress 0x000000) ∧
  ∀ (b : Byte) (image : List Byte) (s : State), construct (b :: image) = some s → (s.launch 0x00 0x8000).runsOpcode b
end

