-- ==== Sys2Proof/Laws/Bus.lean ====
section
/-! SUPPORT. Sys2Proof/Laws/Bus.lean: addresses as numbers, the bus decoder's cases, and what a read and an advance answer (20_memory.md R41 to R48). -/

namespace Sys2Proof.Machine

/-! ## Parts of an address -/

theorem busAddr_toNat (bank : Byte) (offset : Word) : (busAddr bank offset).toNat = bank.toNat * 65536 + offset.toNat := by
  have h : (busAddr bank offset).toNat = (bank ++ offset : BitVec (8 + 16)).toNat := rfl
  rw [h, BitVec.toNat_append, ← Nat.shiftLeft_add_eq_or_of_lt offset.isLt, Nat.shiftLeft_eq]

theorem bankOf_toNat (a : BusAddr) : (bankOf a).toNat = a.toNat / 65536 := by
  have h := a.isLt
  simp [bankOf, Nat.shiftRight_eq_div_pow]
  omega

theorem offsetOf_toNat (a : BusAddr) : (offsetOf a).toNat = a.toNat % 65536 := by
  simp [offsetOf]

theorem bank7Of_toNat (a : BusAddr) : (bank7Of a).toNat = (bankOf a).toNat % 128 := by
  rw [bankOf_toNat]
  simp [bank7Of, Nat.shiftRight_eq_div_pow]

@[simp] theorem bankOf_busAddr (bank : Byte) (offset : Word) : bankOf (busAddr bank offset) = bank := by
  apply BitVec.eq_of_toNat_eq
  have h2 := offset.isLt
  rw [bankOf_toNat, busAddr_toNat]
  omega

@[simp] theorem offsetOf_busAddr (bank : Byte) (offset : Word) : offsetOf (busAddr bank offset) = offset := by
  apply BitVec.eq_of_toNat_eq
  have h2 := offset.isLt
  rw [offsetOf_toNat, busAddr_toNat]
  omega

/-- An address is its bank and its offset (R41). -/
theorem busAddr_eta (a : BusAddr) : busAddr (bankOf a) (offsetOf a) = a := by
  apply BitVec.eq_of_toNat_eq
  rw [busAddr_toNat, bankOf_toNat, offsetOf_toNat]
  omega

/-! ## The cases of the decoder as number ranges (R42) -/

theorem isLoRom_iff (a : BusAddr) :
    isLoRom a = true ↔ (bankOf a).toNat % 128 ≤ 0x3F ∧ 0x8000 ≤ (offsetOf a).toNat := by
  simp [isLoRom, BitVec.le_def, bank7Of_toNat]

theorem isHiRom_iff (a : BusAddr) : isHiRom a = true ↔ 0x40 ≤ (bankOf a).toNat ∧ (bankOf a).toNat ≤ 0x5F := by
  simp [isHiRom, BitVec.le_def]

theorem isRam_iff (a : BusAddr) : isRam a = true ↔ 0x70 ≤ (bankOf a).toNat ∧ (bankOf a).toNat ≤ 0x71 := by
  simp [isRam, BitVec.le_def]

/-- The three cases are disjoint, so their precedence decides nothing (R42). -/
theorem bus_cases_disjoint (a : BusAddr) :
    ¬(isLoRom a = true ∧ isHiRom a = true) ∧ ¬(isLoRom a = true ∧ isRam a = true) ∧ ¬(isHiRom a = true ∧ isRam a = true) := by
  rw [isLoRom_iff, isHiRom_iff, isRam_iff]
  omega

/-- Everything the decoder can answer: never the cache (R42, R47). -/
theorem determineBus_cases (a : BusAddr) :
    (determineBus a = .ok .rom ∧ (isLoRom a = true ∨ isHiRom a = true)) ∨
    (determineBus a = .ok .ram ∧ isRam a = true) ∨
    (determineBus a = .error (.unmappedAddress a) ∧ isMapped a = false) := by
  unfold determineBus isMapped
  cases isLoRom a <;> cases isHiRom a <;> cases isRam a <;> simp

/-- Everything a byte read can answer (R45). -/
theorem State.memRead_cases (s : State) (a : BusAddr) :
    (s.memRead a = .ok (s.rom.read (romIndex a)) ∧ determineBus a = .ok .rom) ∨
    (s.memRead a = .ok (s.ram.read (ramIndex a)) ∧ determineBus a = .ok .ram) ∨
    (s.memRead a = .error (.unmappedAddress a) ∧ isMapped a = false) := by
  rcases determineBus_cases a with ⟨h, -⟩ | ⟨h, -⟩ | ⟨h, hm⟩
  · exact .inl ⟨by simp [State.memRead, h], h⟩
  · exact .inr (.inl ⟨by simp [State.memRead, h], h⟩)
  · exact .inr (.inr ⟨by simp [State.memRead, h], hm⟩)

/-- The only fault of a byte read carries the address read (R161). -/
theorem State.memRead_error {s : State} {a : BusAddr} {f : Fault} (h : s.memRead a = .error f) :
    f = .unmappedAddress a ∧ isMapped a = false := by
  rcases s.memRead_cases a with ⟨h', -⟩ | ⟨h', -⟩ | ⟨h', hm⟩ <;> rw [h'] at h <;> cases h
  exact ⟨rfl, hm⟩

/-- A byte read faults exactly on an unmapped address; the state plays no part (R45). -/
theorem State.memRead_unmapped (s : State) {a : BusAddr} (h : isMapped a = false) :
    s.memRead a = .error (.unmappedAddress a) := by
  simp only [isMapped, Bool.or_eq_false_iff] at h
  simp [State.memRead, determineBus, h]

theorem State.memRead_mapped (s : State) {a : BusAddr} (h : isMapped a = true) : ∃ b, s.memRead a = .ok b := by
  rcases s.memRead_cases a with ⟨h', -⟩ | ⟨h', -⟩ | ⟨-, hm⟩
  · exact ⟨_, h'⟩
  · exact ⟨_, h'⟩
  · simp [h] at hm

/-- ROM indices stay inside the window (R43). -/
theorem romIndex_lt {a : BusAddr} (h : determineBus a = .ok .rom) : romIndex a < 0x200000 := by
  rcases determineBus_cases a with ⟨-, hr⟩ | ⟨h', -⟩ | ⟨h', -⟩
  · have hb := (offsetOf a).isLt
    unfold romIndex
    split
    · rename_i hl
      have := (isLoRom_iff a).mp hl
      rw [bank7Of_toNat]
      omega
    · rename_i hl
      have := (isHiRom_iff a).mp (hr.resolve_left hl)
      omega
  · rw [h'] at h; cases h
  · rw [h'] at h; cases h

/-- RAM indices stay in the lower half of the buffer (R44, R61). -/
theorem ramIndex_lt {a : BusAddr} (h : determineBus a = .ok .ram) : ramIndex a < 0x20000 := by
  rcases determineBus_cases a with ⟨h', -⟩ | ⟨-, hr⟩ | ⟨h', -⟩
  · rw [h'] at h; cases h
  · have hb := (offsetOf a).isLt
    have := (isRam_iff a).mp hr
    unfold ramIndex
    omega
  · rw [h'] at h; cases h

/-- A byte read depends only on the ROM window and the reachable half of RAM (R47, R61). -/
theorem State.memRead_congr {s t : State} (hrom : ∀ n, n < 0x200000 → s.rom.read n = t.rom.read n)
    (hram : ∀ n, n < 0x20000 → s.ram.read n = t.ram.read n) (a : BusAddr) : s.memRead a = t.memRead a := by
  rcases determineBus_cases a with ⟨h, -⟩ | ⟨h, -⟩ | ⟨h, -⟩
  · simp [State.memRead, h, hrom _ (romIndex_lt h)]
  · simp [State.memRead, h, hram _ (ramIndex_lt h)]
  · simp [State.memRead, h]

/-! ## The address increment (R48) -/

@[simp] theorem bankOf_advance (a : BusAddr) (d : Int) : bankOf (advance a d) = bankOf a := bankOf_busAddr _ _

@[simp] theorem offsetOf_advance (a : BusAddr) (d : Int) :
    offsetOf (advance a d) = BitVec.ofInt 16 ((offsetOf a).toNat + d) := offsetOf_busAddr _ _

theorem ofInt_toNat_add_one (o : Word) : BitVec.ofInt 16 ((o.toNat : Int) + 1) = o + 1 := by
  apply BitVec.eq_of_toNat_eq
  have h1 : (1 : Word).toNat = 1 := rfl
  rw [BitVec.toNat_ofInt, BitVec.toNat_add, h1]
  omega

/-- R15's increment beside an untouched PBR is the address-increment rule (R13, R48). -/
theorem advance_busAddr_one (bank : Byte) (offset : Word) : advance (busAddr bank offset) 1 = busAddr bank (offset + 1) := by
  rw [advance, bankOf_busAddr, offsetOf_busAddr, ofInt_toNat_add_one]

/-- Increments add up (R48). -/
theorem advance_advance (a : BusAddr) (d e : Int) : advance (advance a d) e = advance a (d + e) := by
  have h : BitVec.ofInt 16 (((offsetOf (advance a d)).toNat : Int) + e) = BitVec.ofInt 16 ((offsetOf a).toNat + (d + e)) := by
    apply BitVec.eq_of_toNat_eq
    rw [offsetOf_advance, BitVec.toNat_ofInt, BitVec.toNat_ofInt, BitVec.toNat_ofInt]
    omega
  rw [advance, bankOf_advance, h, ← advance]

/-- R15 two further on is the address-increment rule applied with 2 (R46, R48). -/
theorem advance_busAddr_two (bank : Byte) (offset : Word) : advance (busAddr bank offset) 2 = busAddr bank (offset + 2) := by
  rw [show (2 : Int) = 1 + 1 from rfl, ← advance_advance, advance_busAddr_one, advance_busAddr_one, BitVec.add_assoc]
  rfl

end Sys2Proof.Machine
end

