-- ==== Sys2Proof/Laws/Decode.lean ====
section
/-! SUPPORT. Sys2Proof/Laws/Decode.lean: what the key of each encoded instruction selects, and what the decoder answers (30_encoding.md R71 to R81). -/

namespace Sys2Proof

theorem nibbleReg_regNibble (r : RegIdx) : nibbleReg (regNibble r) = r := rfl

theorem regNibble_nibbleReg (n : Nibble) : regNibble (nibbleReg n) = n := rfl

/-- Only a long instruction's opcode byte says that two bytes follow (R79). -/
theorem hasImmediate_iff (op : Byte) : hasImmediate op = true ↔ 0xF0 ≤ op.toNat := by
  revert op
  decide +kernel

/-- The immediate is put together from the bytes the encoder takes it apart into (R49, R74 b). -/
theorem wordOfBytes_split (imm : Word) : wordOfBytes (imm.extractLsb' 0 8) (imm.extractLsb' 8 8) = imm := by
  apply BitVec.eq_of_getLsbD_eq
  intro k hk
  simp only [wordOfBytes, BitVec.getLsbD_append, BitVec.getLsbD_extractLsb']
  by_cases h : k < 8
  · simp [h]
  · have h8 : k - 8 < 8 := by omega
    have hk8 : 8 + (k - 8) = k := by omega
    simp [h, h8, hk8]

theorem extract_wordOfBytes (lo hi : Byte) :
    (wordOfBytes lo hi).extractLsb' 0 8 = lo ∧ (wordOfBytes lo hi).extractLsb' 8 8 = hi := by
  constructor <;> apply BitVec.eq_of_getLsbD_eq <;> intro k hk <;>
    simp only [wordOfBytes, BitVec.getLsbD_append, BitVec.getLsbD_extractLsb']
  · simp [hk]
  · simp [hk]

/-- A legal key of a one-byte instruction ignores the immediate word. -/
theorem decodeKey_some_iff (k : Key) (imm : Word) (i : Instr) :
    decodeKey k imm = some i ↔ ∃ row, keyRow k = some row ∧ row.make (keyNibble k) imm = i := by
  simp [decodeKey, Option.map_eq_some_iff]

/-- Everything the decoder can answer (R70, R79, R80). -/
theorem decode_cases (alt1 alt2 : Bool) (op : Byte) (rest : List Byte) :
    (hasImmediate op = true ∧ ∃ lo hi rest', rest = lo :: hi :: rest' ∧
      decode alt1 alt2 (op :: rest) =
        decodeAnswer alt1 alt2 op rest' (decodeKey (mkKey alt1 alt2 op) (wordOfBytes lo hi))) ∨
    (hasImmediate op = true ∧ rest.length < 2 ∧ decode alt1 alt2 (op :: rest) = .error .truncated) ∨
    (hasImmediate op = false ∧
      decode alt1 alt2 (op :: rest) = decodeAnswer alt1 alt2 op rest (decodeKey (mkKey alt1 alt2 op) 0#16)) := by
  cases h : hasImmediate op
  · exact .inr (.inr ⟨rfl, by simp [decode, h]⟩)
  · match rest with
    | [] => exact .inr (.inl ⟨rfl, by simp, by simp [decode, h]⟩)
    | [_] => exact .inr (.inl ⟨rfl, by simp, by simp [decode, h]⟩)
    | lo :: hi :: rest' => exact .inl ⟨rfl, lo, hi, rest', rfl, by simp [decode, h]⟩

theorem decodeAnswer_ok {alt1 alt2 : Bool} {op : Byte} {rest rest' : List Byte} {o : Option Instr} {i : Instr}
    (h : decodeAnswer alt1 alt2 op rest o = .ok (i, rest')) : o = some i ∧ rest' = rest := by
  cases o with
  | none => cases h
  | some j => cases h; exact ⟨rfl, rfl⟩

/-- A long opcode byte is IWT under every ALT state (R77, R79). -/
theorem decodeKey_iwt (alt1 alt2 : Bool) (n : RegIdx) (imm : Word) :
    decodeKey (mkKey alt1 alt2 (Instr.iwt n imm).opcode) imm = some (.iwt n imm) := by
  have rows : ∀ a1 a2 : Bool, ∀ m : RegIdx,
      (opcodeTable.take 16).all (fun row => !row.selects (mkKey a1 a2 (0xF#4 ++ regNibble m))) = true ∧
      (opcodeTable.drop 16).all (fun row => row.selects (mkKey a1 a2 (0xF#4 ++ regNibble m))) = true ∧
      nibbleReg (keyNibble (mkKey a1 a2 (0xF#4 ++ regNibble m))) = m := by
    decide +kernel
  obtain ⟨h1, h2, h3⟩ := rows alt1 alt2 n
  have hrow : keyRow (mkKey alt1 alt2 (0xF#4 ++ regNibble n)) =
      some ⟨"IWT", 0x0F0, 0x0F0, false, fun n imm => .iwt (nibbleReg n) imm⟩ := by
    refine List.find?_eq_some_iff_append.mpr ⟨?_, opcodeTable.take 16, [], rfl, ?_⟩
    · exact List.all_eq_true.mp h2 _ (List.mem_singleton.mpr rfl)
    · exact fun row hr => List.all_eq_true.mp h1 row hr
  show decodeKey (mkKey alt1 alt2 (0xF#4 ++ regNibble n)) imm = _
  rw [decodeKey, hrow, Option.map_some]
  exact congrArg (fun r => some (Instr.iwt r imm)) h3

/-- A long opcode byte is IWT's, with its own low nibble as the register number (R72, R79). -/
theorem opcode_of_hasImmediate {op : Byte} (h : hasImmediate op = true) (imm : Word) :
    (Instr.iwt (nibbleReg (op.extractLsb' 0 4)) imm).opcode = op := by
  have key : ∀ o : Byte, hasImmediate o = true → (0xF#4 ++ regNibble (nibbleReg (o.extractLsb' 0 4)) : Byte) = o := by
    decide +kernel
  exact key op h

/-- A short key selects an instruction whose encoding is that opcode byte under those ALT snapshots, or none (R75, R80). -/
theorem decodeKey_short (alt1 alt2 : Bool) (op : Byte) (h : hasImmediate op = false) (i : Instr)
    (hi : decodeKey (mkKey alt1 alt2 op) 0#16 = some i) :
    i.opcode = op ∧ i.immediateBytes = [] ∧ i.wf = true ∧ i.admitsAlt alt1 alt2 = true := by
  have key : ∀ a1 a2 : Bool, ∀ o : Byte, hasImmediate o = false → (decodeKey (mkKey a1 a2 o) 0#16).all (fun j =>
      j.opcode == o && j.immediateBytes == [] && j.wf && j.admitsAlt a1 a2) = true := by
    decide +kernel
  have := key alt1 alt2 op h
  rw [hi] at this
  simpa [and_assoc] using this

end Sys2Proof
end

