-- ==== Sys2Proof/Laws/Flags.lean ====
section
/-! SUPPORT. Sys2Proof/Laws/Flags.lean: what the flag masks, flag writes and flag lists do to each bit of SFR (10_state.md R15, R17, R18). -/

namespace Sys2Proof.Machine

theorem flagBit_lt (x : Flag) : flagBit x < 16 := by cases x <;> decide

/-- A mask has exactly its flag's bit (R15). -/
theorem flagMask_bit (x : Flag) (k : Nat) : (flagMask x).getLsbD k = decide (k = flagBit x) := by
  by_cases hk : k < 16
  · have h : ∀ j : Fin 16, (flagMask x).getLsbD j.val = decide (j.val = flagBit x) := by
      cases x <;> decide
    exact h ⟨k, hk⟩
  · rw [BitVec.getLsbD_of_ge _ _ (Nat.le_of_not_lt hk)]
    have hlt := flagBit_lt x
    exact (decide_eq_false (by omega)).symm

/-- No two flags share a bit (R15). -/
theorem flagBit_injective {x y : Flag} (h : flagBit x = flagBit y) : x = y := by
  cases x <;> cases y <;> first | rfl | exact absurd h (by decide)

/-- One entry of a flag list writes its bit and keeps the other fifteen (R18). -/
theorem writeFlag_bit (v : Word) (x : Flag) (b : Bool) (k : Nat) :
    (writeFlag v (x, b)).getLsbD k = if k = flagBit x then b else v.getLsbD k := by
  have hlt := flagBit_lt x
  by_cases hk : k < 16
  · have hm : (flagMask x)[k] = decide (k = flagBit x) := by rw [← flagMask_bit, BitVec.getLsbD_eq_getElem]
    rw [BitVec.getLsbD_eq_getElem hk]
    by_cases hx : k = flagBit x
    · rw [decide_eq_true hx] at hm
      cases b <;> simp [writeFlag, hm, hk, if_pos hx]
    · rw [decide_eq_false hx] at hm
      cases b <;> simp [writeFlag, hm, hk, if_neg hx]
  · have hne : k ≠ flagBit x := by omega
    rw [BitVec.getLsbD_of_ge _ _ (Nat.le_of_not_lt hk), BitVec.getLsbD_of_ge _ _ (Nat.le_of_not_lt hk), if_neg hne]

@[simp] theorem writeFlagList_nil (v : Word) : writeFlagList v [] = v := rfl

@[simp] theorem writeFlagList_cons (v : Word) (e : Flag × Bool) (l : List (Flag × Bool)) :
    writeFlagList v (e :: l) = writeFlagList (writeFlag v e) l := rfl

theorem writeFlagList_append (v : Word) (l m : List (Flag × Bool)) :
    writeFlagList v (l ++ m) = writeFlagList (writeFlagList v l) m := by
  induction l generalizing v with
  | nil => rfl
  | cons e l ih => exact ih (writeFlag v e)

/-- A bit that no entry of the list names keeps its value (R18). -/
theorem writeFlagList_bit_other {l : List (Flag × Bool)} {k : Nat} (h : ∀ e ∈ l, flagBit e.1 ≠ k) (v : Word) :
    (writeFlagList v l).getLsbD k = v.getLsbD k := by
  induction l generalizing v with
  | nil => rfl
  | cons e l ih =>
    rw [writeFlagList_cons, ih (fun e' he' => h e' (List.mem_cons_of_mem _ he')), writeFlag_bit,
      if_neg (fun hk => h e List.mem_cons_self hk.symm)]

/-- Phase 2 clears bits 8 and 9 and keeps the others (R94). -/
theorem clearAlt_bit (v : Word) (k : Nat) :
    (writeFlagList v [(.alt1, false), (.alt2, false)]).getLsbD k = if k = 8 ∨ k = 9 then false else v.getLsbD k := by
  simp only [writeFlagList_cons, writeFlagList_nil, writeFlag_bit, flagBit]
  by_cases h8 : k = 8 <;> by_cases h9 : k = 9 <;> simp [h8, h9]

end Sys2Proof.Machine
end

