-- ==== Sys2Proof/Laws/State.lean ====
section
/-! SUPPORT. Sys2Proof/Laws/State.lean: one lemma per field of State per update, and reads of registers and memory after an update. -/

namespace Sys2Proof.Machine

/-! ## setReg -/

@[simp] theorem State.setReg_r (s : State) (i : RegIdx) (v : Word) : (s.setReg i v).r = s.r.set i v := rfl
@[simp] theorem State.setReg_sfr (s : State) (i : RegIdx) (v : Word) : (s.setReg i v).sfr = s.sfr := rfl
@[simp] theorem State.setReg_brambr (s : State) (i : RegIdx) (v : Word) : (s.setReg i v).brambr = s.brambr := rfl
@[simp] theorem State.setReg_pbr (s : State) (i : RegIdx) (v : Word) : (s.setReg i v).pbr = s.pbr := rfl
@[simp] theorem State.setReg_rombr (s : State) (i : RegIdx) (v : Word) : (s.setReg i v).rombr = s.rombr := rfl
@[simp] theorem State.setReg_cfgr (s : State) (i : RegIdx) (v : Word) : (s.setReg i v).cfgr = s.cfgr := rfl
@[simp] theorem State.setReg_scbr (s : State) (i : RegIdx) (v : Word) : (s.setReg i v).scbr = s.scbr := rfl
@[simp] theorem State.setReg_clsr (s : State) (i : RegIdx) (v : Word) : (s.setReg i v).clsr = s.clsr := rfl
@[simp] theorem State.setReg_scmr (s : State) (i : RegIdx) (v : Word) : (s.setReg i v).scmr = s.scmr := rfl
@[simp] theorem State.setReg_rambr (s : State) (i : RegIdx) (v : Word) : (s.setReg i v).rambr = s.rambr := rfl
@[simp] theorem State.setReg_cbr (s : State) (i : RegIdx) (v : Word) : (s.setReg i v).cbr = s.cbr := rfl
@[simp] theorem State.setReg_sreg (s : State) (i : RegIdx) (v : Word) : (s.setReg i v).sreg = s.sreg := rfl
@[simp] theorem State.setReg_dreg (s : State) (i : RegIdx) (v : Word) : (s.setReg i v).dreg = s.dreg := rfl
@[simp] theorem State.setReg_cycles (s : State) (i : RegIdx) (v : Word) : (s.setReg i v).cycles = s.cycles := rfl
@[simp] theorem State.setReg_rom (s : State) (i : RegIdx) (v : Word) : (s.setReg i v).rom = s.rom := rfl
@[simp] theorem State.setReg_ram (s : State) (i : RegIdx) (v : Word) : (s.setReg i v).ram = s.ram := rfl
@[simp] theorem State.setReg_cache (s : State) (i : RegIdx) (v : Word) : (s.setReg i v).cache = s.cache := rfl
@[simp] theorem State.setReg_memRead (s : State) (i : RegIdx) (v : Word) (a : BusAddr) : (s.setReg i v).memRead a = s.memRead a := rfl

/-! ## writeFlags -/

@[simp] theorem State.writeFlags_r (s : State) (l : List (Flag × Bool)) : (s.writeFlags l).r = s.r := rfl
@[simp] theorem State.writeFlags_sfr (s : State) (l : List (Flag × Bool)) : (s.writeFlags l).sfr = writeFlagList s.sfr l := rfl
@[simp] theorem State.writeFlags_brambr (s : State) (l : List (Flag × Bool)) : (s.writeFlags l).brambr = s.brambr := rfl
@[simp] theorem State.writeFlags_pbr (s : State) (l : List (Flag × Bool)) : (s.writeFlags l).pbr = s.pbr := rfl
@[simp] theorem State.writeFlags_rombr (s : State) (l : List (Flag × Bool)) : (s.writeFlags l).rombr = s.rombr := rfl
@[simp] theorem State.writeFlags_cfgr (s : State) (l : List (Flag × Bool)) : (s.writeFlags l).cfgr = s.cfgr := rfl
@[simp] theorem State.writeFlags_scbr (s : State) (l : List (Flag × Bool)) : (s.writeFlags l).scbr = s.scbr := rfl
@[simp] theorem State.writeFlags_clsr (s : State) (l : List (Flag × Bool)) : (s.writeFlags l).clsr = s.clsr := rfl
@[simp] theorem State.writeFlags_scmr (s : State) (l : List (Flag × Bool)) : (s.writeFlags l).scmr = s.scmr := rfl
@[simp] theorem State.writeFlags_rambr (s : State) (l : List (Flag × Bool)) : (s.writeFlags l).rambr = s.rambr := rfl
@[simp] theorem State.writeFlags_cbr (s : State) (l : List (Flag × Bool)) : (s.writeFlags l).cbr = s.cbr := rfl
@[simp] theorem State.writeFlags_sreg (s : State) (l : List (Flag × Bool)) : (s.writeFlags l).sreg = s.sreg := rfl
@[simp] theorem State.writeFlags_dreg (s : State) (l : List (Flag × Bool)) : (s.writeFlags l).dreg = s.dreg := rfl
@[simp] theorem State.writeFlags_cycles (s : State) (l : List (Flag × Bool)) : (s.writeFlags l).cycles = s.cycles := rfl
@[simp] theorem State.writeFlags_rom (s : State) (l : List (Flag × Bool)) : (s.writeFlags l).rom = s.rom := rfl
@[simp] theorem State.writeFlags_ram (s : State) (l : List (Flag × Bool)) : (s.writeFlags l).ram = s.ram := rfl
@[simp] theorem State.writeFlags_cache (s : State) (l : List (Flag × Bool)) : (s.writeFlags l).cache = s.cache := rfl
@[simp] theorem State.writeFlags_reg (s : State) (l : List (Flag × Bool)) (j : RegIdx) : (s.writeFlags l).reg j = s.reg j := rfl
@[simp] theorem State.writeFlags_memRead (s : State) (l : List (Flag × Bool)) (a : BusAddr) : (s.writeFlags l).memRead a = s.memRead a := rfl

/-! ## setSreg -/

@[simp] theorem State.setSreg_r (s : State) (n : RegIdx) : (s.setSreg n).r = s.r := rfl
@[simp] theorem State.setSreg_sfr (s : State) (n : RegIdx) : (s.setSreg n).sfr = s.sfr := rfl
@[simp] theorem State.setSreg_brambr (s : State) (n : RegIdx) : (s.setSreg n).brambr = s.brambr := rfl
@[simp] theorem State.setSreg_pbr (s : State) (n : RegIdx) : (s.setSreg n).pbr = s.pbr := rfl
@[simp] theorem State.setSreg_rombr (s : State) (n : RegIdx) : (s.setSreg n).rombr = s.rombr := rfl
@[simp] theorem State.setSreg_cfgr (s : State) (n : RegIdx) : (s.setSreg n).cfgr = s.cfgr := rfl
@[simp] theorem State.setSreg_scbr (s : State) (n : RegIdx) : (s.setSreg n).scbr = s.scbr := rfl
@[simp] theorem State.setSreg_clsr (s : State) (n : RegIdx) : (s.setSreg n).clsr = s.clsr := rfl
@[simp] theorem State.setSreg_scmr (s : State) (n : RegIdx) : (s.setSreg n).scmr = s.scmr := rfl
@[simp] theorem State.setSreg_rambr (s : State) (n : RegIdx) : (s.setSreg n).rambr = s.rambr := rfl
@[simp] theorem State.setSreg_cbr (s : State) (n : RegIdx) : (s.setSreg n).cbr = s.cbr := rfl
@[simp] theorem State.setSreg_sreg (s : State) (n : RegIdx) : (s.setSreg n).sreg = n := rfl
@[simp] theorem State.setSreg_dreg (s : State) (n : RegIdx) : (s.setSreg n).dreg = s.dreg := rfl
@[simp] theorem State.setSreg_cycles (s : State) (n : RegIdx) : (s.setSreg n).cycles = s.cycles := rfl
@[simp] theorem State.setSreg_rom (s : State) (n : RegIdx) : (s.setSreg n).rom = s.rom := rfl
@[simp] theorem State.setSreg_ram (s : State) (n : RegIdx) : (s.setSreg n).ram = s.ram := rfl
@[simp] theorem State.setSreg_cache (s : State) (n : RegIdx) : (s.setSreg n).cache = s.cache := rfl
@[simp] theorem State.setSreg_reg (s : State) (n : RegIdx) (j : RegIdx) : (s.setSreg n).reg j = s.reg j := rfl
@[simp] theorem State.setSreg_memRead (s : State) (n : RegIdx) (a : BusAddr) : (s.setSreg n).memRead a = s.memRead a := rfl

/-! ## setDreg -/

@[simp] theorem State.setDreg_r (s : State) (n : RegIdx) : (s.setDreg n).r = s.r := rfl
@[simp] theorem State.setDreg_sfr (s : State) (n : RegIdx) : (s.setDreg n).sfr = s.sfr := rfl
@[simp] theorem State.setDreg_brambr (s : State) (n : RegIdx) : (s.setDreg n).brambr = s.brambr := rfl
@[simp] theorem State.setDreg_pbr (s : State) (n : RegIdx) : (s.setDreg n).pbr = s.pbr := rfl
@[simp] theorem State.setDreg_rombr (s : State) (n : RegIdx) : (s.setDreg n).rombr = s.rombr := rfl
@[simp] theorem State.setDreg_cfgr (s : State) (n : RegIdx) : (s.setDreg n).cfgr = s.cfgr := rfl
@[simp] theorem State.setDreg_scbr (s : State) (n : RegIdx) : (s.setDreg n).scbr = s.scbr := rfl
@[simp] theorem State.setDreg_clsr (s : State) (n : RegIdx) : (s.setDreg n).clsr = s.clsr := rfl
@[simp] theorem State.setDreg_scmr (s : State) (n : RegIdx) : (s.setDreg n).scmr = s.scmr := rfl
@[simp] theorem State.setDreg_rambr (s : State) (n : RegIdx) : (s.setDreg n).rambr = s.rambr := rfl
@[simp] theorem State.setDreg_cbr (s : State) (n : RegIdx) : (s.setDreg n).cbr = s.cbr := rfl
@[simp] theorem State.setDreg_sreg (s : State) (n : RegIdx) : (s.setDreg n).sreg = s.sreg := rfl
@[simp] theorem State.setDreg_dreg (s : State) (n : RegIdx) : (s.setDreg n).dreg = n := rfl
@[simp] theorem State.setDreg_cycles (s : State) (n : RegIdx) : (s.setDreg n).cycles = s.cycles := rfl
@[simp] theorem State.setDreg_rom (s : State) (n : RegIdx) : (s.setDreg n).rom = s.rom := rfl
@[simp] theorem State.setDreg_ram (s : State) (n : RegIdx) : (s.setDreg n).ram = s.ram := rfl
@[simp] theorem State.setDreg_cache (s : State) (n : RegIdx) : (s.setDreg n).cache = s.cache := rfl
@[simp] theorem State.setDreg_reg (s : State) (n : RegIdx) (j : RegIdx) : (s.setDreg n).reg j = s.reg j := rfl
@[simp] theorem State.setDreg_memRead (s : State) (n : RegIdx) (a : BusAddr) : (s.setDreg n).memRead a = s.memRead a := rfl

/-! ## Reads after a register write -/

@[simp] theorem State.reg_setReg_same (s : State) (i : RegIdx) (v : Word) : (s.setReg i v).reg i = v := by
  simp [State.reg, State.setReg]

theorem State.reg_setReg (s : State) (i j : RegIdx) (v : Word) :
    (s.setReg i v).reg j = if j = i then v else s.reg j := by
  simp [State.reg, State.setReg, Vector.getElem_set, Fin.ext_iff, eq_comm]

theorem State.reg_setReg_other (s : State) {i j : RegIdx} (v : Word) (h : j ≠ i) :
    (s.setReg i v).reg j = s.reg j := by
  rw [State.reg_setReg, if_neg h]

@[simp] theorem State.flag_setReg (s : State) (i : RegIdx) (v : Word) (x : Flag) : (s.setReg i v).flag x = s.flag x := rfl

/-! ## The common phases -/

@[simp] theorem State.cycleHook_eq (s : State) (c : Cost) : s.cycleHook c = s := rfl

/-- Phase 1's register effect is R15 one up and nothing else (R13, R93). -/
theorem State.incPc_eq (s : State) : s.incPc = s.setReg 15 (s.reg 15 + 1) := rfl

/-- Phases 2 and 3 touch SFR and the latches only (R94, R95). -/
theorem State.consumeSticky_eq (s : State) :
    s.consumeSticky =
      { s with sfr := writeFlagList s.sfr [(.alt1, false), (.alt2, false)], sreg := 0, dreg := 0 } := rfl

theorem State.applyPrefix_eq (s : State) (l : List (Flag × Bool)) :
    s.applyPrefix l =
      { s with sfr := writeFlagList (writeFlagList s.sfr [(.alt1, false), (.alt2, false)]) l } := rfl

/-- The end of a data-processing instruction: R[d], SFR and the latches, nothing else (R99, R130). -/
theorem State.writeResult_eq (s : State) (v : Word) (l : List (Flag × Bool)) :
    s.writeResult v l =
      { s with r := s.r.set s.dreg v, sfr := writeFlagList (writeFlagList s.sfr [(.alt1, false), (.alt2, false)]) l,
               sreg := 0, dreg := 0 } := rfl

/-- A completed instruction answers the state it was given: the cycle hook is a no-op (R97). -/
theorem complete_eq (i : Instr) (s : State) : complete i s = .next s := rfl

end Sys2Proof.Machine
end

