-- ==== Sys2Proof/Laws/Exec.lean ====
section
/-! SUPPORT. Sys2Proof/Laws/Exec.lean: what the shared ends of an instruction change and keep, bit by bit and field by field; each meaning as one of them. -/

namespace Sys2Proof.Machine

/-! ## Phases 2 and 3 -/

theorem State.consumeSticky_bit (s : State) (k : Nat) :
    s.consumeSticky.sfr.getLsbD k = if k = 8 ∨ k = 9 then false else s.sfr.getLsbD k :=
  clearAlt_bit s.sfr k

@[simp] theorem State.consumeSticky_reg (s : State) (i : RegIdx) : s.consumeSticky.reg i = s.reg i := rfl
@[simp] theorem State.consumeSticky_sreg (s : State) : s.consumeSticky.sreg = 0 := rfl
@[simp] theorem State.consumeSticky_dreg (s : State) : s.consumeSticky.dreg = 0 := rfl

/-! ## What no end of an instruction touches -/

theorem sameControl_consumeSticky (s : State) : SameControl s s.consumeSticky :=
  ⟨rfl, rfl, rfl, rfl, rfl, rfl, rfl, rfl, rfl, rfl⟩

theorem sameBuffers_of_fields {s t : State} (hrom : t.rom = s.rom) (hram : t.ram = s.ram) (hcache : t.cache = s.cache) :
    SameBuffers s t := by
  refine ⟨fun a => ?_, fun n => by rw [hrom], fun n => by rw [hram], fun n => by rw [hcache]⟩
  simp [State.memRead, hrom, hram]

/-! ## The end of a data-processing instruction -/

theorem State.writeResult_reg (s : State) (v : Word) (l : List (Flag × Bool)) (i : RegIdx) :
    (s.writeResult v l).reg i = if i = s.dreg then v else s.reg i :=
  State.reg_setReg s.consumeSticky s.dreg i v

theorem State.writeResult_sfr (s : State) (v : Word) (l : List (Flag × Bool)) :
    (s.writeResult v l).sfr = writeFlagList s.consumeSticky.sfr l := rfl

theorem State.writeResult_latches (s : State) (v : Word) (l : List (Flag × Bool)) : Latches (s.writeResult v l) 0 0 :=
  ⟨rfl, rfl⟩

theorem State.writeResult_control (s : State) (v : Word) (l : List (Flag × Bool)) : SameControl s (s.writeResult v l) :=
  ⟨rfl, rfl, rfl, rfl, rfl, rfl, rfl, rfl, rfl, rfl⟩

theorem State.writeResult_buffers (s : State) (v : Word) (l : List (Flag × Bool)) : SameBuffers s (s.writeResult v l) :=
  sameBuffers_of_fields rfl rfl rfl

/-- SFR after a Z and S update (R18, R94). -/
theorem State.writeResult_zs_bit (s : State) (v : Word) (z sg : Bool) (k : Nat) :
    (s.writeResult v [(.z, z), (.s, sg)]).sfr.getLsbD k =
      if k = 3 then sg else if k = 1 then z else if k = 8 ∨ k = 9 then false else s.sfr.getLsbD k := by
  rw [State.writeResult_sfr]
  simp only [writeFlagList_cons, writeFlagList_nil, writeFlag_bit, flagBit, State.consumeSticky_bit]

/-- SFR after MERGE's update (R132). -/
theorem State.writeResult_merge_bit (s : State) (v : Word) (sg ov c z : Bool) (k : Nat) :
    (s.writeResult v [(.s, sg), (.ov, ov), (.c, c), (.z, z)]).sfr.getLsbD k =
      if k = 1 then z else if k = 2 then c else if k = 4 then ov else if k = 3 then sg
      else if k = 8 ∨ k = 9 then false else s.sfr.getLsbD k := by
  rw [State.writeResult_sfr]
  simp only [writeFlagList_cons, writeFlagList_nil, writeFlag_bit, flagBit, State.consumeSticky_bit]

/-- SFR and the latches after a prefix (R123 to R125). -/
theorem State.applyPrefix_bit (s : State) (l : List (Flag × Bool)) (k : Nat) :
    (s.applyPrefix l).sfr.getLsbD k = (writeFlagList s.consumeSticky.sfr l).getLsbD k := rfl

theorem State.applyPrefix_latches (s : State) (l : List (Flag × Bool)) : Latches (s.applyPrefix l) s.sreg s.dreg :=
  ⟨rfl, rfl⟩

/-! ## Each meaning as a shared end of an instruction -/

theorem exec_stop_eq (s : State) :
    exec .stop s = .next (s.consumeSticky.writeFlags [(.g, false)]) := rfl
theorem exec_nop_eq (s : State) :
    exec .nop s = .next s.consumeSticky := rfl
theorem exec_toR_eq (s : State) (n : RegIdx) :
    exec (.toR n) s = .next (s.consumeSticky.setDreg n) := rfl
theorem exec_withR_eq (s : State) (n : RegIdx) :
    exec (.withR n) s = .next ((s.consumeSticky.setSreg n).setDreg n) := rfl
theorem exec_fromR_eq (s : State) (n : RegIdx) :
    exec (.fromR n) s = .next (s.consumeSticky.setSreg n) := rfl
theorem exec_alt1_eq (s : State) :
    exec .alt1 s = .next (s.applyPrefix [(.alt1, true)]) := rfl
theorem exec_alt2_eq (s : State) :
    exec .alt2 s = .next (s.applyPrefix [(.alt2, true)]) := rfl
theorem exec_alt3_eq (s : State) :
    exec .alt3 s = .next (s.applyPrefix [(.alt1, true), (.alt2, true)]) := rfl
theorem exec_notR_eq (s : State) :
    exec .notR s = .next (s.writeResult (notResult s.source) (flagsWord (notResult s.source))) := rfl
theorem exec_merge_eq (s : State) :
    exec .merge s = .next (s.writeResult (mergeResult (s.reg 7) (s.reg 8)) (flagsMerge (mergeResult (s.reg 7) (s.reg 8)))) := rfl
theorem exec_andR_eq (s : State) (n : RegIdx) :
    exec (.andR n) s = .next (s.writeResult (andResult s.source (s.reg n)) (flagsWord (andResult s.source (s.reg n)))) := rfl
theorem exec_andI_eq (s : State) (k : Nibble) :
    exec (.andI k) s = .next (s.writeResult (andResult s.source (immNibble k)) (flagsWord (andResult s.source (immNibble k)))) := rfl
theorem exec_sex_eq (s : State) :
    exec .sex s = .next (s.writeResult (sexResult s.source) (flagsWord (sexResult s.source))) := rfl
theorem exec_hib_eq (s : State) :
    exec .hib s = .next (s.writeResult (hibResult s.source) (flagsByte (hibResult s.source))) := rfl
theorem exec_xorR_eq (s : State) (n : RegIdx) :
    exec (.xorR n) s = .next (s.writeResult (xorResult s.source (s.reg n)) (flagsWord (xorResult s.source (s.reg n)))) := rfl
theorem exec_xorI_eq (s : State) (k : Nibble) :
    exec (.xorI k) s = .next (s.writeResult (xorResult s.source (immNibble k)) (flagsWord (xorResult s.source (immNibble k)))) := rfl
theorem exec_iwt_eq (s : State) (n : RegIdx) (imm : Word) :
    exec (.iwt n imm) s = .next (s.consumeSticky.incPc.incPc.setReg n imm) := rfl

end Sys2Proof.Machine
end

