-- ==== Sys2Proof/Laws/Fetch.lean ====
section
/-! SUPPORT. Sys2Proof/Laws/Fetch.lean: everything a fetch and a Tick can answer (40_engine_step.md R90 to R96; 60_exceptions.md R164). -/

namespace Sys2Proof.Machine

@[simp] theorem State.incPc_afterFetch (s : State) : s.incPc = s.afterFetch := rfl

@[simp] theorem State.afterFetch_sfr (s : State) : s.afterFetch.sfr = s.sfr := rfl
@[simp] theorem State.afterFetch_pbr (s : State) : s.afterFetch.pbr = s.pbr := rfl
@[simp] theorem State.afterFetch_sreg (s : State) : s.afterFetch.sreg = s.sreg := rfl
@[simp] theorem State.afterFetch_dreg (s : State) : s.afterFetch.dreg = s.dreg := rfl
@[simp] theorem State.afterFetch_memRead (s : State) (a : BusAddr) : s.afterFetch.memRead a = s.memRead a := rfl
@[simp] theorem State.afterFetch_pc (s : State) : s.afterFetch.reg 15 = s.reg 15 + 1 := State.reg_setReg_same ..

/-- After phase 1 the fetch address is one further along the address-increment rule (R13, R48). -/
theorem State.fetchAddr_afterFetch (s : State) : s.afterFetch.fetchAddr = advance s.fetchAddr 1 := by
  rw [State.fetchAddr, State.afterFetch_pc, State.afterFetch_pbr, State.fetchAddr, advance_busAddr_one]

/-- Everything `FetchByte()` can answer (R93). -/
theorem State.fetchByte_cases (s : State) :
    (∃ b, s.memRead s.fetchAddr = .ok b ∧ s.fetchByte = .ok (b, s.afterFetch)) ∨
    (s.memRead s.fetchAddr = .error (.unmappedAddress s.fetchAddr) ∧
      s.fetchByte = .error (.unmappedAddress s.fetchAddr)) := by
  cases h : s.memRead s.fetchAddr with
  | ok b => exact .inl ⟨b, rfl, by simp [State.fetchByte, h]⟩
  | error f => exact .inr ⟨by rw [(State.memRead_error h).1], by simp [State.fetchByte, h, (State.memRead_error h).1]⟩

/-- A fetch that completes read the encoding of the instruction it answers, under the ALT flags as they stand (R93, R96). -/
theorem State.fetchInstr_ok {s s1 : State} {i : Instr} (h : s.fetchInstr = .ok (i, s1)) :
    s1 = s.afterFetch ∧ ∃ op bytes rest, s.memRead s.fetchAddr = .ok op ∧ s.afterFetch.instrBytes op = .ok bytes ∧
      decode (s.flag .alt1) (s.flag .alt2) bytes = .ok (i, rest) := by
  unfold State.fetchInstr at h
  rcases s.fetchByte_cases with ⟨op, hop, hf⟩ | ⟨-, hf⟩ <;> rw [hf] at h
  · simp only at h
    split at h
    · cases h
    · rename_i bytes hbytes
      split at h
      · rename_i j rest hd
        cases h
        exact ⟨rfl, op, bytes, rest, hop, hbytes, hd⟩
      · cases h
  · cases h

/-- The converse: bytes that read as an encoding are fetched as that instruction. -/
theorem State.fetchInstr_of_bytes {s : State} {op : Byte} {bytes rest : List Byte} {i : Instr}
    (hop : s.memRead s.fetchAddr = .ok op) (hb : s.afterFetch.instrBytes op = .ok bytes)
    (hd : decode (s.flag .alt1) (s.flag .alt2) bytes = .ok (i, rest)) : s.fetchInstr = .ok (i, s.afterFetch) := by
  have hf : s.fetchByte = .ok (op, s.afterFetch) := by simp [State.fetchByte, hop]
  have hd' : decode (s.afterFetch.flag .alt1) (s.afterFetch.flag .alt2) bytes = .ok (i, rest) := hd
  simp [State.fetchInstr, hf, hb, hd']

/-- A one-byte instruction is fetched from its opcode byte (R70, R79). -/
theorem State.instrBytes_short (s : State) {op : Byte} (h : hasImmediate op = false) : s.instrBytes op = .ok [op] := by
  simp [State.instrBytes, h]

/-- The bytes of a long instruction, or the first fault met reading its immediate (R46, R150). -/
theorem State.instrBytes_long (s : State) {op : Byte} (h : hasImmediate op = true) :
    (∃ lo hi, s.memRead s.fetchAddr = .ok lo ∧ s.memRead (advance s.fetchAddr 1) = .ok hi ∧
      s.instrBytes op = .ok [op, lo, hi]) ∨
    (s.memRead s.fetchAddr = .error (.unmappedAddress s.fetchAddr) ∧
      s.instrBytes op = .error (.unmappedAddress s.fetchAddr)) ∨
    (∃ lo, s.memRead s.fetchAddr = .ok lo ∧
      s.memRead (advance s.fetchAddr 1) = .error (.unmappedAddress (advance s.fetchAddr 1)) ∧
      s.instrBytes op = .error (.unmappedAddress (advance s.fetchAddr 1))) := by
  unfold State.instrBytes State.memReadPair
  cases h1 : s.memRead s.fetchAddr with
  | error f =>
    have := (State.memRead_error h1).1
    subst this
    exact .inr (.inl ⟨rfl, by simp [h]⟩)
  | ok lo =>
    cases h2 : s.memRead (advance s.fetchAddr 1) with
    | error f =>
      have := (State.memRead_error h2).1
      subst this
      exact .inr (.inr ⟨lo, rfl, rfl, by simp [h]⟩)
    | ok hi => exact .inl ⟨lo, hi, rfl, rfl, by simp [h]⟩

/-- Everything a fetch can answer, fault by fault (R164). -/
theorem State.fetchInstr_cases (s : State) :
    (∃ i, s.fetchInstr = .ok (i, s.afterFetch)) ∨
    (∃ a, s.fetchInstr = .error (.unmappedAddress a)) ∨
    (∃ op, s.memRead s.fetchAddr = .ok op ∧
      s.fetchInstr = .error (.unimplementedInstruction op (s.flag .alt1) (s.flag .alt2))) := by
  rcases s.fetchByte_cases with ⟨op, hop, hf⟩ | ⟨-, hf⟩
  · cases hb : s.afterFetch.instrBytes op with
    | error f =>
      cases hi : hasImmediate op
      · rw [State.instrBytes_short _ hi] at hb; cases hb
      · rcases s.afterFetch.instrBytes_long hi with ⟨lo, hi, -, -, h⟩ | ⟨-, h⟩ | ⟨lo, -, -, h⟩ <;> rw [h] at hb <;> cases hb
        · exact .inr (.inl ⟨s.afterFetch.fetchAddr, by simp only [State.fetchInstr, hf, h]⟩)
        · exact .inr (.inl ⟨advance s.afterFetch.fetchAddr 1, by simp only [State.fetchInstr, hf, h]⟩)
    | ok bytes =>
      cases hd : decode (s.afterFetch.flag .alt1) (s.afterFetch.flag .alt2) bytes with
      | error e => exact .inr (.inr ⟨op, hop, by simp only [State.fetchInstr, hf, hb, hd]; rfl⟩)
      | ok p => exact .inl ⟨p.1, by simp only [State.fetchInstr, hf, hb, hd]⟩
  · exact .inr (.inl ⟨s.fetchAddr, by simp only [State.fetchInstr, hf]⟩)

/-! ## The Tick -/

/-- Everything a Tick that answers a next state did (R90 to R92). -/
theorem step_next_cases {s t : State} (h : step s = .next t) :
    (s.flag .g = false ∧ t = s) ∨
    (s.flag .g = true ∧ ∃ i, s.fetchInstr = .ok (i, s.afterFetch) ∧ exec i s.afterFetch = .next t) := by
  unfold step at h
  cases hg : s.flag .g
  · rw [hg] at h
    cases h
    exact .inl ⟨rfl, rfl⟩
  · rw [hg, if_pos rfl] at h
    unfold runStep at h
    split at h
    · cases h
    · rename_i i s1 hf
      obtain ⟨rfl, -⟩ := State.fetchInstr_ok hf
      exact .inr ⟨rfl, i, hf, h⟩

/-- A running Tick whose fetch answers an instruction is that instruction's execution after phase 1. -/
theorem step_of_fetch {s : State} {i : Instr} (hg : s.flag .g = true) (hf : s.fetchInstr = .ok (i, s.afterFetch)) :
    step s = exec i s.afterFetch := by
  simp [step, hg, runStep, hf]

/-- A running Tick whose fetch faults is that fault (R160). -/
theorem step_of_fault {s : State} {f : Fault} (hg : s.flag .g = true) (hf : s.fetchInstr = .error f) : step s = .fault f := by
  simp [step, hg, runStep, hf, raise]

end Sys2Proof.Machine
end

