-- ==== Sys2Proof/Laws/Memory.lean ====
section
/-! SUPPORT. Sys2Proof/Laws/Memory.lean: read after write, and that every buffer operation keeps the canonical form (log 11). -/

namespace Sys2Proof.Machine

@[simp] theorem Memory.read_nil (a : Nat) : Memory.read [] a = Memory.unlisted := rfl

theorem Memory.read_cons (x : Nat) (c : Byte) (m : Memory) (a : Nat) :
    Memory.read ((x, c) :: m) a = if a = x then c else Memory.read m a := rfl

theorem Memory.wfFrom_cons {lo x : Nat} {c : Byte} {m : Memory} :
    Memory.wfFrom lo ((x, c) :: m) = true ↔ lo ≤ x ∧ c ≠ Memory.unlisted ∧ Memory.wfFrom (x + 1) m = true := by
  simp [Memory.wfFrom, and_assoc]

theorem Memory.wfFrom_mono {lo lo' : Nat} {m : Memory} (h : Memory.wfFrom lo m = true) (hl : lo' ≤ lo) :
    Memory.wfFrom lo' m = true := by
  cases m with
  | nil => rfl
  | cons e m =>
    obtain ⟨h1, h2⟩ := Memory.wfFrom_cons.mp h
    exact Memory.wfFrom_cons.mpr ⟨by omega, h2⟩

/-- Below the first listed index everything reads as the fill. -/
theorem Memory.read_below {lo : Nat} {m : Memory} (h : Memory.wfFrom lo m = true) {a : Nat} (ha : a < lo) :
    Memory.read m a = Memory.unlisted := by
  induction m generalizing lo with
  | nil => rfl
  | cons e m ih =>
    obtain ⟨x, c⟩ := e
    obtain ⟨h1, -, h3⟩ := Memory.wfFrom_cons.mp h
    rw [Memory.read_cons, if_neg (by omega)]
    exact ih h3 (by omega)

theorem Memory.wfFrom_write {lo : Nat} {m : Memory} (h : Memory.wfFrom lo m = true) {a : Nat} (ha : lo ≤ a) (b : Byte) :
    Memory.wfFrom lo (Memory.write m a b) = true := by
  induction m generalizing lo with
  | nil =>
    by_cases hb : b = Memory.unlisted
    · simp [Memory.write, hb, Memory.wfFrom]
    · simp [Memory.write, hb, Memory.wfFrom, ha]
  | cons e m ih =>
    obtain ⟨x, c⟩ := e
    obtain ⟨h1, h2, h3⟩ := Memory.wfFrom_cons.mp h
    unfold Memory.write
    split
    · rename_i hlt
      split
      · exact h
      · rename_i hb
        exact Memory.wfFrom_cons.mpr ⟨ha, hb, Memory.wfFrom_cons.mpr ⟨hlt, h2, h3⟩⟩
    · rename_i hge
      split
      · rename_i heq
        split
        · exact Memory.wfFrom_mono h3 (by omega)
        · rename_i hb
          exact Memory.wfFrom_cons.mpr ⟨ha, hb, heq ▸ h3⟩
      · exact Memory.wfFrom_cons.mpr ⟨h1, h2, ih h3 (by omega)⟩

/-- A write keeps the canonical form. -/
theorem Memory.wf_write {m : Memory} (h : m.wf = true) (a : Nat) (b : Byte) : (m.write a b).wf = true :=
  Memory.wfFrom_write h (Nat.zero_le a) b

theorem Memory.read_write_from {lo : Nat} {m : Memory} (h : Memory.wfFrom lo m = true) (a : Nat) (b : Byte) (a' : Nat) :
    (m.write a b).read a' = if a' = a then b else m.read a' := by
  induction m generalizing lo with
  | nil =>
    by_cases hb : b = Memory.unlisted <;> simp [Memory.write, hb, Memory.read_cons]
  | cons e m ih =>
    obtain ⟨x, c⟩ := e
    obtain ⟨h1, h2, h3⟩ := Memory.wfFrom_cons.mp h
    unfold Memory.write
    split
    · rename_i hlt
      split
      · rename_i hb
        by_cases haa : a' = a
        · subst haa
          rw [if_pos rfl, hb, Memory.read_cons, if_neg (by omega), Memory.read_below h3 (by omega)]
        · rw [if_neg haa]
      · rw [Memory.read_cons]
    · rename_i hge
      split
      · rename_i heq
        subst heq
        split
        · rename_i hb
          by_cases haa : a' = a
          · rw [if_pos haa, hb, haa, Memory.read_below h3 (by omega)]
          · rw [if_neg haa, Memory.read_cons, if_neg haa]
        · rw [Memory.read_cons, Memory.read_cons]
          by_cases haa : a' = a <;> simp [haa]
      · rename_i hne
        rw [Memory.read_cons, Memory.read_cons, ih h3]
        by_cases hx : a' = x
        · rw [if_pos hx, if_pos hx, if_neg (by omega)]
        · rw [if_neg hx, if_neg hx]

/-- A read after a write: the byte written at its index, the old byte everywhere else. -/
theorem Memory.read_write {m : Memory} (h : m.wf = true) (a : Nat) (b : Byte) (a' : Nat) :
    (m.write a b).read a' = if a' = a then b else m.read a' :=
  Memory.read_write_from h a b a'

theorem Memory.within_cons {size x : Nat} {c : Byte} {m : Memory} :
    Memory.within size ((x, c) :: m) = true ↔ x < size ∧ Memory.within size m = true := by
  simp [Memory.within]

/-- A write inside a buffer stays inside it. -/
theorem Memory.within_write {size : Nat} {m : Memory} (h : m.within size = true) {a : Nat} (ha : a < size) (b : Byte) :
    (m.write a b).within size = true := by
  induction m with
  | nil => by_cases hb : b = Memory.unlisted <;> simp [Memory.write, hb, Memory.within, ha]
  | cons e m ih =>
    obtain ⟨x, c⟩ := e
    obtain ⟨hx, hm⟩ := Memory.within_cons.mp h
    unfold Memory.write
    split
    · split
      · exact h
      · exact Memory.within_cons.mpr ⟨ha, h⟩
    · split
      · split
        · exact hm
        · exact Memory.within_cons.mpr ⟨ha, hm⟩
      · exact Memory.within_cons.mpr ⟨hx, ih hm⟩

/-- Construction copies the sequence over the fill (R28, R192). -/
theorem Memory.read_ofBytes (i : Nat) (l : List Byte) (a : Nat) :
    (Memory.ofBytes i l).read a = if i ≤ a then l.getD (a - i) Memory.unlisted else Memory.unlisted := by
  induction l generalizing i with
  | nil => simp [Memory.ofBytes]
  | cons b l ih =>
    have key : (if b = Memory.unlisted then Memory.ofBytes (i + 1) l else (i, b) :: Memory.ofBytes (i + 1) l).read a
        = if a = i then b else (Memory.ofBytes (i + 1) l).read a := by
      by_cases hb : b = Memory.unlisted
      · rw [if_pos hb]
        by_cases ha : a = i
        · rw [if_pos ha, ih, if_neg (by omega), hb]
        · rw [if_neg ha]
      · rw [if_neg hb, Memory.read_cons]
    rw [Memory.ofBytes, key, ih]
    by_cases ha : a = i
    · simp [ha]
    · by_cases hlt : i ≤ a
      · have : a - i = (a - (i + 1)) + 1 := by omega
        rw [if_neg ha, if_pos (by omega), if_pos hlt, this, List.getD_cons_succ]
      · rw [if_neg ha, if_neg (by omega), if_neg hlt]

theorem Memory.wfFrom_ofBytes (i : Nat) (l : List Byte) : Memory.wfFrom i (Memory.ofBytes i l) = true := by
  induction l generalizing i with
  | nil => rfl
  | cons b l ih =>
    rw [Memory.ofBytes]
    split
    · exact Memory.wfFrom_mono (ih (i + 1)) (by omega)
    · rename_i hb
      exact Memory.wfFrom_cons.mpr ⟨Nat.le_refl i, hb, ih (i + 1)⟩

/-- Construction answers the canonical form. -/
theorem Memory.wf_ofBytes (l : List Byte) : (Memory.ofBytes 0 l).wf = true := Memory.wfFrom_ofBytes 0 l

theorem Memory.within_ofBytes {size i : Nat} {l : List Byte} (h : i + l.length ≤ size) :
    (Memory.ofBytes i l).within size = true := by
  induction l generalizing i with
  | nil => rfl
  | cons b l ih =>
    simp only [List.length_cons] at h
    rw [Memory.ofBytes]
    split
    · exact ih (by omega)
    · exact Memory.within_cons.mpr ⟨by omega, ih (by omega)⟩

theorem Memory.eq_of_read_from {lo : Nat} {m n : Memory} (hm : Memory.wfFrom lo m = true) (hn : Memory.wfFrom lo n = true)
    (h : ∀ a, m.read a = n.read a) : m = n := by
  induction m generalizing lo n with
  | nil =>
    cases n with
    | nil => rfl
    | cons e n =>
      obtain ⟨x, c⟩ := e
      obtain ⟨-, h2, -⟩ := Memory.wfFrom_cons.mp hn
      exact absurd (by simpa [Memory.read_cons] using (h x).symm) h2
  | cons e m ih =>
    obtain ⟨x, c⟩ := e
    obtain ⟨m1, m2, m3⟩ := Memory.wfFrom_cons.mp hm
    cases n with
    | nil => exact absurd (by simpa [Memory.read_cons] using h x) m2
    | cons e' n =>
      obtain ⟨y, d⟩ := e'
      obtain ⟨n1, n2, n3⟩ := Memory.wfFrom_cons.mp hn
      have hxy : x = y := by
        rcases Nat.lt_trichotomy x y with hlt | heq | hgt
        · have hx := h x
          rw [Memory.read_cons, if_pos rfl, Memory.read_cons, if_neg (by omega), Memory.read_below n3 (by omega)] at hx
          exact absurd hx m2
        · exact heq
        · have hy := h y
          rw [Memory.read_cons, if_neg (by omega), Memory.read_below m3 (by omega), Memory.read_cons, if_pos rfl] at hy
          exact absurd hy.symm n2
      subst hxy
      have hcd : c = d := by simpa [Memory.read_cons] using h x
      subst hcd
      have htail : ∀ a, Memory.read m a = Memory.read n a := by
        intro a
        have ha := h a
        by_cases hax : a = x
        · rw [hax, Memory.read_below m3 (by omega), Memory.read_below n3 (by omega)]
        · simpa [Memory.read_cons, hax] using ha
      rw [ih m3 n3 htail]

/-- Equal contents are equal data: two canonical buffers that read alike are the same list. -/
theorem Memory.eq_of_read {m n : Memory} (hm : m.wf = true) (hn : n.wf = true) (h : ∀ a, m.read a = n.read a) : m = n :=
  Memory.eq_of_read_from hm hn h

end Sys2Proof.Machine
end

