-- ==== Sys2Proof/Laws/PerInstr.lean ====
section
/-! SUPPORT. Sys2Proof/Laws/PerInstr.lean: statements about each instruction as syntax, one lemma per constructor (30_encoding.md R70, R73, R75). -/

namespace Sys2Proof

/-- The immediate word an instruction's own bytes carry, 0 where they carry none (R74 b). -/
def Laws.immediateWord (i : Instr) : Word :=
  match i.immediateBytes with
  | [lo, hi] => wordOfBytes lo hi
  | _ => 0

/-- Family KeySelects: under every ALT state its row admits, the opcode byte of a well-formed instruction selects that
instruction (R75). -/
def Laws.KeySelects.Statement (i : Instr) : Prop :=
  ∀ alt1 alt2 : Bool, i.wf = true → i.admitsAlt alt1 alt2 = true →
    decodeKey (mkKey alt1 alt2 i.opcode) (Laws.immediateWord i) = some i

theorem Laws.KeySelects.stop : Laws.KeySelects.Statement .stop := by
  unfold KeySelects.Statement; decide +kernel
theorem Laws.KeySelects.nop : Laws.KeySelects.Statement .nop := by
  unfold KeySelects.Statement; decide +kernel
theorem Laws.KeySelects.toR (n : RegIdx) : Laws.KeySelects.Statement (.toR n) := by
  unfold KeySelects.Statement; revert n; decide +kernel
theorem Laws.KeySelects.withR (n : RegIdx) : Laws.KeySelects.Statement (.withR n) := by
  unfold KeySelects.Statement; revert n; decide +kernel
theorem Laws.KeySelects.alt1 : Laws.KeySelects.Statement .alt1 := by
  unfold KeySelects.Statement; decide +kernel
theorem Laws.KeySelects.alt2 : Laws.KeySelects.Statement .alt2 := by
  unfold KeySelects.Statement; decide +kernel
theorem Laws.KeySelects.alt3 : Laws.KeySelects.Statement .alt3 := by
  unfold KeySelects.Statement; decide +kernel
theorem Laws.KeySelects.notR : Laws.KeySelects.Statement .notR := by
  unfold KeySelects.Statement; decide +kernel
theorem Laws.KeySelects.merge : Laws.KeySelects.Statement .merge := by
  unfold KeySelects.Statement; decide +kernel
theorem Laws.KeySelects.andR (n : RegIdx) : Laws.KeySelects.Statement (.andR n) := by
  unfold KeySelects.Statement; revert n; decide +kernel
theorem Laws.KeySelects.andI (k : Nibble) : Laws.KeySelects.Statement (.andI k) := by
  unfold KeySelects.Statement; revert k; decide +kernel
theorem Laws.KeySelects.sex : Laws.KeySelects.Statement .sex := by
  unfold KeySelects.Statement; decide +kernel
theorem Laws.KeySelects.fromR (n : RegIdx) : Laws.KeySelects.Statement (.fromR n) := by
  unfold KeySelects.Statement; revert n; decide +kernel
theorem Laws.KeySelects.hib : Laws.KeySelects.Statement .hib := by
  unfold KeySelects.Statement; decide +kernel
theorem Laws.KeySelects.xorR (n : RegIdx) : Laws.KeySelects.Statement (.xorR n) := by
  unfold KeySelects.Statement; revert n; decide +kernel
theorem Laws.KeySelects.xorI (k : Nibble) : Laws.KeySelects.Statement (.xorI k) := by
  unfold KeySelects.Statement; revert k; decide +kernel
theorem Laws.KeySelects.iwt (n : RegIdx) (imm : Word) : Laws.KeySelects.Statement (.iwt n imm) := by
  intro a1 a2 _ _
  have h : Laws.immediateWord (.iwt n imm) = imm := wordOfBytes_split imm
  rw [h]
  exact decodeKey_iwt a1 a2 n imm

/-- Family EncodedLength: 3 bytes for IWT, 1 byte for every other instruction, and the opcode byte alone tells which (R70, R79). -/
def Laws.EncodedLength.Statement (i : Instr) : Prop :=
  (encode i).length = (if hasImmediate i.opcode then 3 else 1)

theorem Laws.EncodedLength.stop : Laws.EncodedLength.Statement .stop := by unfold EncodedLength.Statement; decide
theorem Laws.EncodedLength.nop : Laws.EncodedLength.Statement .nop := by unfold EncodedLength.Statement; decide
theorem Laws.EncodedLength.toR (n : RegIdx) : Laws.EncodedLength.Statement (.toR n) := by
  unfold EncodedLength.Statement; revert n; decide
theorem Laws.EncodedLength.withR (n : RegIdx) : Laws.EncodedLength.Statement (.withR n) := by
  unfold EncodedLength.Statement; revert n; decide
theorem Laws.EncodedLength.alt1 : Laws.EncodedLength.Statement .alt1 := by unfold EncodedLength.Statement; decide
theorem Laws.EncodedLength.alt2 : Laws.EncodedLength.Statement .alt2 := by unfold EncodedLength.Statement; decide
theorem Laws.EncodedLength.alt3 : Laws.EncodedLength.Statement .alt3 := by unfold EncodedLength.Statement; decide
theorem Laws.EncodedLength.notR : Laws.EncodedLength.Statement .notR := by unfold EncodedLength.Statement; decide
theorem Laws.EncodedLength.merge : Laws.EncodedLength.Statement .merge := by unfold EncodedLength.Statement; decide
theorem Laws.EncodedLength.andR (n : RegIdx) : Laws.EncodedLength.Statement (.andR n) := by
  unfold EncodedLength.Statement; revert n; decide
theorem Laws.EncodedLength.andI (n : Nibble) : Laws.EncodedLength.Statement (.andI n) := by
  unfold EncodedLength.Statement; revert n; decide
theorem Laws.EncodedLength.sex : Laws.EncodedLength.Statement .sex := by unfold EncodedLength.Statement; decide
theorem Laws.EncodedLength.fromR (n : RegIdx) : Laws.EncodedLength.Statement (.fromR n) := by
  unfold EncodedLength.Statement; revert n; decide
theorem Laws.EncodedLength.hib : Laws.EncodedLength.Statement .hib := by unfold EncodedLength.Statement; decide
theorem Laws.EncodedLength.xorR (n : RegIdx) : Laws.EncodedLength.Statement (.xorR n) := by
  unfold EncodedLength.Statement; revert n; decide
theorem Laws.EncodedLength.xorI (n : Nibble) : Laws.EncodedLength.Statement (.xorI n) := by
  unfold EncodedLength.Statement; revert n; decide
theorem Laws.EncodedLength.iwt (n : RegIdx) (imm : Word) : Laws.EncodedLength.Statement (.iwt n imm) := by
  have h : ∀ m : RegIdx, hasImmediate (0xF#4 ++ regNibble m) = true := by decide
  show ([_, _, _] : List Byte).length = if hasImmediate (0xF#4 ++ regNibble n) then 3 else 1
  rw [if_pos (h n), List.length_cons, List.length_cons, List.length_cons, List.length_nil]

end Sys2Proof
end

