-- ==== Sys2Proof/Laws/Placing.lean ====
section
/-! SUPPORT. Sys2Proof/Laws/Placing.lean: placing a byte or an instruction keeps the canonical form, and the bytes placed are the bytes read (log 1, log 11). -/

namespace Sys2Proof.Machine

/-- The buffers the bus reaches are canonical and inside their sizes. -/
def State.reachableOk (s : State) : Prop :=
  (s.rom.wf = true ∧ s.rom.within Config.romSize = true) ∧ (s.ram.wf = true ∧ s.ram.within Config.ramSize = true)

/-- Placing a byte changes at most one buffer. -/
theorem State.placeByte_cases (s : State) (a : BusAddr) (b : Byte) :
    (determineBus a = .ok .rom ∧ s.placeByte a b = { s with rom := s.rom.write (romIndex a) b }) ∨
    (determineBus a = .ok .ram ∧ s.placeByte a b = { s with ram := s.ram.write (ramIndex a) b }) ∨
    (isMapped a = false ∧ s.placeByte a b = s) := by
  rcases determineBus_cases a with ⟨h, -⟩ | ⟨h, -⟩ | ⟨h, hm⟩
  · exact .inl ⟨h, by simp [State.placeByte, h]⟩
  · exact .inr (.inl ⟨h, by simp [State.placeByte, h]⟩)
  · exact .inr (.inr ⟨hm, by simp [State.placeByte, h]⟩)

theorem State.placeByte_reachableOk {s : State} (h : s.reachableOk) (a : BusAddr) (b : Byte) : (s.placeByte a b).reachableOk := by
  rcases s.placeByte_cases a b with ⟨hb, he⟩ | ⟨hb, he⟩ | ⟨-, he⟩ <;> rw [he]
  · have hlt : romIndex a < Config.romSize := romIndex_lt hb
    exact ⟨⟨Memory.wf_write h.1.1 _ _, Memory.within_write h.1.2 hlt _⟩, h.2⟩
  · have hlt : ramIndex a < Config.ramSize := Nat.lt_trans (ramIndex_lt hb) (by decide)
    exact ⟨h.1, Memory.wf_write h.2.1 _ _, Memory.within_write h.2.2 hlt _⟩
  · exact h

/-- Placing a byte leaves everything outside ROM and RAM alone. -/
theorem State.placeByte_rest (s : State) (a : BusAddr) (b : Byte) :
    (s.placeByte a b).r = s.r ∧ (s.placeByte a b).sfr = s.sfr ∧ (s.placeByte a b).pbr = s.pbr ∧
    (s.placeByte a b).sreg = s.sreg ∧ (s.placeByte a b).dreg = s.dreg ∧ (s.placeByte a b).cache = s.cache := by
  rcases s.placeByte_cases a b with ⟨-, he⟩ | ⟨-, he⟩ | ⟨-, he⟩ <;> rw [he] <;> exact ⟨rfl, rfl, rfl, rfl, rfl, rfl⟩

/-- The byte placed at a mapped address is the byte read there. -/
theorem State.memRead_placeByte_same {s : State} (h : s.reachableOk) {a : BusAddr} (ha : isMapped a = true) (b : Byte) :
    (s.placeByte a b).memRead a = .ok b := by
  rcases s.placeByte_cases a b with ⟨hb, he⟩ | ⟨hb, he⟩ | ⟨hm, -⟩
  · rw [he]; simp [State.memRead, hb, Memory.read_write h.1.1]
  · rw [he]; simp [State.memRead, hb, Memory.read_write h.2.1]
  · simp [ha] at hm

/-- Inside one bank, two mapped addresses with different offsets are different bytes. -/
theorem State.memRead_placeByte_other {s : State} (h : s.reachableOk) {a a' : BusAddr} (hbank : bankOf a' = bankOf a)
    (hne : offsetOf a' ≠ offsetOf a) (b : Byte) : (s.placeByte a b).memRead a' = s.memRead a' := by
  have hoff : (offsetOf a').toNat ≠ (offsetOf a).toNat := fun e => hne (BitVec.eq_of_toNat_eq e)
  have h1 := (offsetOf a).isLt
  have h2 := (offsetOf a').isLt
  rcases s.placeByte_cases a b with ⟨hb, he⟩ | ⟨hb, he⟩ | ⟨-, he⟩
  · rw [he]
    rcases determineBus_cases a' with ⟨hb', hr'⟩ | ⟨hb', -⟩ | ⟨hb', -⟩
    · have hidx : romIndex a' ≠ romIndex a := by
        rcases determineBus_cases a with ⟨-, hr⟩ | ⟨hc, -⟩ | ⟨hc, -⟩
        · simp only [romIndex, bank7Of_toNat, hbank]
          simp only [isLoRom_iff, isHiRom_iff, hbank] at hr hr' ⊢
          split <;> split <;> omega
        · rw [hc] at hb; cases hb
        · rw [hc] at hb; cases hb
      simp [State.memRead, hb', Memory.read_write h.1.1, hidx]
    · simp [State.memRead, hb']
    · simp [State.memRead, hb']
  · rw [he]
    rcases determineBus_cases a' with ⟨hb', -⟩ | ⟨hb', -⟩ | ⟨hb', -⟩
    · simp [State.memRead, hb']
    · have hidx : ramIndex a' ≠ ramIndex a := by
        simp only [ramIndex, hbank]
        omega
      simp [State.memRead, hb', Memory.read_write h.2.1, hidx]
    · simp [State.memRead, hb']
  · rw [he]

end Sys2Proof.Machine
end

