-- ==== Sys2Proof/Laws/RegisterFile.lean ====
section
/-! SUPPORT. Sys2Proof/Laws/RegisterFile.lean: reads after writes for all 26 registers (10_state.md R22 to R24). -/

namespace Sys2Proof.Machine

/-- An 8-bit register reads back what fits it, a 16-bit register reads back anything (R22). -/
theorem State.readReg_storeReg_same (s : State) (id : RegId) (v : Word) :
    (s.storeReg id v).readReg id = BitVec.ofNat 16 (v.toNat % 2 ^ regWidth id) := by
  have hv := v.isLt
  apply BitVec.eq_of_toNat_eq
  cases id <;> simp [State.storeReg, State.readReg, regWidth] <;> omega

/-- A store reaches no other register (R22). -/
theorem State.readReg_storeReg_other (s : State) {id id' : RegId} (v : Word) (h : id' ≠ id) :
    (s.storeReg id v).readReg id' = s.readReg id' := by
  cases id <;> cases id' <;>
    first
    | rfl
    | exact absurd rfl h
    | exact State.reg_setReg_other s v (fun e => h (congrArg RegId.gpr e))

/-- A store reaches nothing outside the Register File (R195). -/
theorem State.storeReg_rest (s : State) (id : RegId) (v : Word) :
    (s.storeReg id v).sreg = s.sreg ∧ (s.storeReg id v).dreg = s.dreg ∧ (s.storeReg id v).cycles = s.cycles ∧
    (s.storeReg id v).rom = s.rom ∧ (s.storeReg id v).ram = s.ram ∧ (s.storeReg id v).cache = s.cache := by
  cases id <;> exact ⟨rfl, rfl, rfl, rfl, rfl, rfl⟩

/-- A register never reads above its width (R22). -/
theorem State.readReg_lt (s : State) (id : RegId) : (s.readReg id).toNat < 2 ^ regWidth id := by
  cases id <;> simp only [State.readReg, regWidth] <;> first | exact BitVec.isLt _ | skip
  all_goals
    rw [BitVec.toNat_setWidth_of_le (by decide)]
    exact BitVec.isLt _

/-- Everything a width-checked write can answer (R22). -/
theorem State.writeReg_cases (s : State) (id : RegId) (v : Word) :
    (v.toNat < 2 ^ regWidth id ∧ s.writeReg id v = .ok (s.storeReg id v)) ∨
    (¬ v.toNat < 2 ^ regWidth id ∧ s.writeReg id v = .error (.tooWide id v)) := by
  by_cases h : v.toNat < 2 ^ regWidth id
  · exact .inl ⟨h, by simp [State.writeReg, h]⟩
  · exact .inr ⟨h, by rw [State.writeReg, if_neg h]⟩

end Sys2Proof.Machine
end

