-- ==== Sys2Proof/Tests/Slice0.lean ====
section
/-! SUPPORT. Sys2Proof/Tests/Slice0.lean: the model's own tests. Every expected value is the spec's: an encoding of 30_encoding.md, a worked example of an instruction rule, or a vector of 95_test_vectors.md (named at each test). -/

namespace Sys2Proof.Tests

open Sys2Proof Sys2Proof.Machine

/-! ## WellFormed: the ill-formed term of each check is refused -/

theorem test_wf_andR_zero : (Instr.andR 0).wf = false := by decide
theorem test_wf_andI_zero : (Instr.andI 0).wf = false := by decide
theorem test_wf_xorR_zero : (Instr.xorR 0).wf = false := by decide
theorem test_wf_xorI_zero : (Instr.xorI 0).wf = false := by decide
theorem test_wf_andR_fifteen : (Instr.andR 15).wf = true := by decide

/-! ## Decode: words written out bit by bit (30_encoding.md R75; 95_test_vectors.md 2.4) -/

/-- The instruction a byte list decodes to, `none` where the decoder refuses. -/
def decoded (alt1 alt2 : Bool) (bytes : List Byte) : Option Instr :=
  match decode alt1 alt2 bytes with
  | .ok (i, _) => some i
  | .error _ => none

theorem test_decode_stop : decoded true true [0b00000000] = some .stop := by decide
theorem test_decode_nop : decoded false true [0b00000001] = some .nop := by decide
theorem test_decode_to : decoded true false [0b00011111] = some (.toR 15) := by decide
theorem test_decode_with : decoded false false [0b00101010] = some (.withR 10) := by decide
theorem test_decode_alt1 : decoded false false [0b00111101] = some .alt1 := by decide
theorem test_decode_alt2 : decoded true false [0b00111110] = some .alt2 := by decide
theorem test_decode_alt3 : decoded true true [0b00111111] = some .alt3 := by decide
theorem test_decode_not : decoded true false [0b01001111] = some .notR := by decide
theorem test_decode_merge : decoded true true [0b01110000] = some .merge := by decide
theorem test_decode_andR : decoded false false [0b01110001] = some (.andR 1) := by decide
theorem test_decode_andI : decoded false true [0b01110001] = some (.andI 1) := by decide
theorem test_decode_sex : decoded false false [0b10010101] = some .sex := by decide
theorem test_decode_from : decoded false true [0b10111111] = some (.fromR 15) := by decide
theorem test_decode_hib : decoded true false [0b11000000] = some .hib := by decide
theorem test_decode_xorR : decoded true false [0b11001111] = some (.xorR 15) := by decide
theorem test_decode_xorI : decoded true true [0b11000001] = some (.xorI 1) := by decide
theorem test_decode_iwt : decoded false false [0b11110000, 0x12, 0x34] = some (.iwt 0 0x3412) := by decide
theorem test_decode_illegal_and : decode true false [0x71] = .error (.illegal 0x71 true false) := by decide
theorem test_decode_illegal_xor : decode false true [0xC1] = .error (.illegal 0xC1 false true) := by decide
theorem test_decode_illegal_02 : decoded false false [0x02] = none := by decide
theorem test_decode_illegal_ef : decoded false true [0xEF] = none := by decide
theorem test_decode_truncated : decode false false [0xF0, 0x12] = .error .truncated := by decide

/-- How many of the first `n` keys satisfy `p`. -/
def countKeys (p : Key → Bool) : Nat → Nat
  | 0 => 0
  | n + 1 => countKeys p n + cond (p (BitVec.ofNat 10 n)) 1 0

/-- R76: 352 of the 1024 keys are legal. -/
theorem test_decode_legal_count : countKeys (fun k => (keyRow k).isSome) 1024 = 352 := by decide +kernel

/-- R76: no key selects two rows. -/
theorem test_decode_rows_disjoint : countKeys (fun k => decide (1 < (opcodeTable.filter (·.selects k)).length)) 1024 = 0 := by
  decide +kernel

theorem test_tableWord_andI : decodeTableWord 16 0x27F = some (.andI 15) := by decide
theorem test_tableWord_iwt : decodeTableWord 24 0x3412F0 = some (.iwt 0 0x3412) := by decide

/-! ## Bus, register file, flags (95_test_vectors.md 2.1 to 2.3) -/

/-- Running at `00:8000` with this ROM image and these register and SFR contents. -/
def at8000 (romBytes : List Byte) (sfr : Word) (sreg dreg : RegIdx) (regs : List (RegIdx × Word)) : State :=
  regs.foldl (fun s p => s.setReg p.1 p.2)
    ({ State.reset with rom := Memory.ofBytes 0 romBytes, sfr := sfr, sreg := sreg, dreg := dreg }.setReg 15 0x8000)

/-- Does a Tick answer a next state with this property? -/
def nextHas (s : State) (p : State → Bool) : Bool :=
  match step s with
  | .next t => p t
  | .fault _ => false
  | .refused _ => false

/-- Does a Tick answer this fault? -/
def faultsWith (s : State) (f : Fault) : Bool :=
  match step s with
  | .next _ => false
  | .fault g => decide (g = f)
  | .refused _ => false

/-- The byte a chip-local address reads as; `none` where it faults. -/
def byteAt (s : State) (a : BusAddr) : Option Byte :=
  match s.memRead a with
  | .ok b => some b
  | .error _ => none

theorem test_bus_lorom_last : (determineBus 0x3FFFFF, romIndex 0x3FFFFF) = (.ok .rom, 0x1FFFFF) := by decide
theorem test_bus_hirom_bank41 : (determineBus 0x410000, romIndex 0x410000) = (.ok .rom, 0x10000) := by decide
theorem test_bus_ram_last : (determineBus 0x71FFFF, ramIndex 0x71FFFF) = (.ok .ram, 0x1FFFF) := by decide
theorem test_bus_mirror : byteAt (at8000 [0xF0, 0x12, 0x34, 0x00] 0 0 0 []) 0x808001 = some 0x12 := by decide
theorem test_bus_fill : byteAt (at8000 [0xF0, 0x12, 0x34, 0x00] 0 0 0 []) 0x008004 = some 0xFF := by decide
theorem test_bus_unmapped_60 : State.reset.memRead 0x600000 = .error (.unmappedAddress 0x600000) := by decide
theorem test_bus_unmapped_c0 : State.reset.memRead 0xC08000 = .error (.unmappedAddress 0xC08000) := by decide
theorem test_read16 : (at8000 [0xF0, 0x12, 0x34, 0x00] 0 0 0 []).memRead16 0x008001 = .ok 0x3412 := by decide
theorem test_read16_wrap_faults : State.reset.memRead16 0x00FFFF = .error (.unmappedAddress 0) := by decide
theorem test_advance_wrap : advance 0x70FFFE 3 = 0x700001 := by decide
theorem test_advance_negative : advance 0x800000 (-1) = 0x80FFFF := by decide
theorem test_write_too_wide : State.reset.writeReg .pbr 0x100 = .error (.tooWide .pbr 0x100) := by decide
theorem test_write_ff_reads_ff : (State.reset.storeReg .pbr 0xFF).readReg .pbr = 0x00FF := by decide
theorem test_readInc_wraps_byte : ((State.reset.storeReg .rambr 0xFF).readInc .rambr).2.rambr = 0 := by decide
theorem test_readDec_wraps_word : ((State.reset.readDec (.gpr 3)).2.reg 3) = 0xFFFF := by decide
theorem test_writeFlags_z_s : writeFlagList 0xFFFD [(.z, true), (.s, false)] = 0xFFF7 := by decide
theorem test_construct_empty : construct [] = some State.reset := by decide

/-! ## One Tick of each instruction (worked examples of the rules; 95_test_vectors.md 2.5 to 2.13) -/

theorem test_stop : nextHas (at8000 [0x00] 0x033E 3 5 [])
    (fun t => t.sfr == 0x001E && t.sreg == 0 && t.dreg == 0 && t.reg 15 == 0x8001) := by decide
theorem test_stop_keeps_irq : nextHas (at8000 [0x00] 0x8020 0 0 []) (fun t => t.sfr == 0x8000) := by decide
theorem test_nop : nextHas (at8000 [0x01] 0x0120 3 5 [])
    (fun t => t.sfr == 0x0020 && t.sreg == 0 && t.dreg == 0 && t.reg 15 == 0x8001) := by decide
theorem test_to : nextHas (at8000 [0x15] 0x0020 3 0 []) (fun t => t.sreg == 0 && t.dreg == 5) := by decide
theorem test_with : nextHas (at8000 [0x23] 0x0020 1 9 []) (fun t => t.sreg == 3 && t.dreg == 3 && t.sfr == 0x0020) := by decide
theorem test_from : nextHas (at8000 [0xB3] 0x0020 0 5 []) (fun t => t.sreg == 3 && t.dreg == 0) := by decide
theorem test_alt1 : nextHas (at8000 [0x3D] 0x0220 3 0 []) (fun t => t.sfr == 0x0120 && t.sreg == 3 && t.dreg == 0) := by decide
theorem test_alt2 : nextHas (at8000 [0x3E] 0x0120 3 3 []) (fun t => t.sfr == 0x0220 && t.sreg == 3 && t.dreg == 3) := by decide
theorem test_alt3 : nextHas (at8000 [0x3F] 0x0020 4 4 []) (fun t => t.sfr == 0x0320 && t.sreg == 4 && t.dreg == 4) := by decide
theorem test_not : nextHas (at8000 [0x4F] 0x0020 3 0 [(3, 0x00FF)])
    (fun t => t.reg 0 == 0xFF00 && t.reg 3 == 0x00FF && t.sfr == 0x0028) := by decide
theorem test_not_keeps_carry : nextHas (at8000 [0x4F] 0x0034 0 0 [(0, 0xFFFF)]) (fun t => t.sfr == 0x0036) := by decide
theorem test_merge : nextHas (at8000 [0x70] 0x0020 3 7 [(7, 0x12AB), (8, 0x9C34)])
    (fun t => t.reg 7 == 0x129C && t.sfr == 0x003E) := by decide
theorem test_merge_carry_zero : nextHas (at8000 [0x70] 0x0020 0 0 [(7, 0x2000)]) (fun t => t.reg 0 == 0x2000 && t.sfr == 0x0026) := by
  decide
theorem test_andR : nextHas (at8000 [0x75] 0x0020 3 0 [(3, 0xF0F0), (5, 0x0FF0)]) (fun t => t.reg 0 == 0x00F0 && t.sfr == 0x0020) := by
  decide
theorem test_andR_reads_pc : nextHas (at8000 [0x7F] 0x0020 0 0 [(0, 0xFFFF)]) (fun t => t.reg 0 == 0x8001 && t.sfr == 0x0028) := by
  decide
theorem test_andI : nextHas (at8000 [0x7F] 0x0234 0 0 [(0, 0x1234)]) (fun t => t.reg 0 == 0x0004 && t.sfr == 0x0034) := by decide
theorem test_sex : nextHas (at8000 [0x95] 0x0020 4 0 [(4, 0x129C)]) (fun t => t.reg 0 == 0xFF9C && t.sfr == 0x0028) := by decide
theorem test_hib : nextHas (at8000 [0xC0] 0x0020 4 0 [(4, 0x8001)]) (fun t => t.reg 0 == 0x0080 && t.sfr == 0x0028) := by decide
theorem test_hib_zero : nextHas (at8000 [0xC0] 0x0020 4 0 [(4, 0x00FF)]) (fun t => t.reg 0 == 0 && t.sfr == 0x0022) := by decide
theorem test_xorR : nextHas (at8000 [0xC1] 0x0120 0 3 [(0, 0x00FF), (1, 0x0F0F)])
    (fun t => t.reg 3 == 0x0FF0 && t.reg 0 == 0x00FF && t.sfr == 0x0020) := by decide
theorem test_xorI : nextHas (at8000 [0xC5] 0x0320 0 0 [(0, 0x8000)]) (fun t => t.reg 0 == 0x8005 && t.sfr == 0x0028) := by decide
theorem test_iwt : nextHas (at8000 [0xF9, 0x00, 0x80] 0x033E 3 5 [])
    (fun t => t.reg 9 == 0x8000 && t.reg 15 == 0x8003 && t.sfr == 0x003E && t.sreg == 0 && t.dreg == 0) := by decide
theorem test_iwt_jump : nextHas (at8000 [0xFF, 0x10, 0x80] 0x0020 0 0 []) (fun t => t.reg 15 == 0x8010) := by decide

/-! ## Faults, the stopped engine, and the interface (95_test_vectors.md 2.5, 2.14; P4, P5) -/

theorem test_fault_unmapped_fetch : faultsWith ({ State.reset with sfr := 0x0020 }) (.unmappedAddress 0) := by decide
theorem test_fault_unimplemented : faultsWith (at8000 [0x75] 0x0120 0 0 []) (.unimplementedInstruction 0x75 true false) := by decide
theorem test_fault_iwt_wrap : faultsWith ((at8000 [] 0x0020 0 0 []).setReg 15 0xFFFF) (.unmappedAddress 0) := by decide
theorem test_stopped : nextHas ((at8000 [] 0x0300 7 9 []).setReg 15 0x1234)
    (fun t => decide (t = (at8000 [] 0x0300 7 9 []).setReg 15 0x1234)) := by decide
theorem test_not_jump : nextHas (at8000 [0x4F] 0x0020 0 15 [(0, 0x7FEF)]) (fun t => t.reg 15 == 0x8010 && t.sfr == 0x0028) := by
  decide
theorem test_withFetchWord_runs : nextHas (State.reset.withFetchWord 16 0x3C5) (fun t => t.reg 0 == 0x0005) := by decide
theorem test_memory_canonical : ((Memory.write [(3, 0x01)] 3 0xFF).wf, Memory.write [(3, 0x01)] 3 0xFF) = (true, []) := by decide

/-! ## Witnesses: states and operands that meet the hypotheses of the statements of Certificates/Slice0/Obligations.lean, at the boundaries of their clauses -/

/-- Running at an address: G set, SFR otherwise as given, this ROM image, `00:8000` in R15. -/
def running (romBytes : List Byte) (alt : Word) : State := at8000 romBytes (0x0020 ||| alt) 0 0 []

/-- Running in bank 0 at this R15, with an opcode byte at `00:FFFE` (IWT) and at `00:FFFF` (IWT). -/
def atEdge (pc : Word) : State :=
  { State.reset with rom := [(0x7FFE, 0xF0), (0x7FFF, 0xF1)], sfr := 0x0020 }.setReg 15 pc

/-- O2 -/
theorem witness_construct_fits : ([] : List Byte).length ≤ 0x200000 ∧ (List.replicate 0x200000 (0x01 : Byte)).length ≤ 0x200000 :=
  ⟨by decide, by rw [List.length_replicate]⟩
theorem witness_construct_too_long : 0x200000 < (List.replicate 0x200001 (0x01 : Byte)).length := by
  rw [List.length_replicate]; decide

/-- O3, O49 -/
theorem witness_registerWidth_boundaries : (0xFF : Word) ≤ 0xFF ∧ 0xFF < (0x100 : Word) ∧ (0xFF : Word).toNat < 2 ^ regWidth .pbr ∧
    2 ^ regWidth .pbr ≤ (0x100 : Word).toNat ∧ (0xFFFF : Word).toNat < 2 ^ regWidth .cbr := by decide

/-- O3, O38 to O40, O42: a Tick that answers a next state. -/
theorem witness_step_next : ∃ t, step (running [0x70] 0) = .next t := ⟨_, rfl⟩

/-- O4 -/
theorem witness_readInc_other : RegId.gpr 0 ≠ RegId.gpr 15 ∧ RegId.pbr ≠ RegId.sfr := by decide

/-- O6: a flag named twice, whose last entry decides, and a bit that no entry names. -/
theorem witness_writeFlags :
    (∃ before after x b, [(Flag.z, true), (.s, true), (.z, false)] = before ++ (x, b) :: after ∧ before ≠ [] ∧ ∀ e ∈ after, e.1 ≠ x) ∧
    (∀ e ∈ [(Flag.z, true), (.s, true), (.z, false)], (flagMask e.1).getLsbD 2 = false) :=
  ⟨⟨[(.z, true), (.s, true)], [], .z, false, rfl, by decide, by decide⟩, by decide⟩

/-- O9, O10: the last index of the ROM window, the last RAM bank. -/
theorem witness_windows : 0x1FFFFF < 0x200000 ∧ ((0x71 : Byte) = 0x70 ∨ (0x71 : Byte) = 0x71) := by decide

/-- O11: both bytes read; the low byte faults; only the high byte faults. -/
theorem witness_read16 :
    (running [0x12, 0x34] 0).memRead 0x008000 = .ok 0x12 ∧ (running [0x12, 0x34] 0).memRead (advance 0x008000 1) = .ok 0x34 ∧
    State.reset.memRead 0x007FFF = .error (.unmappedAddress 0x007FFF) ∧
    State.reset.memRead 0x00FFFF = .ok 0xFF ∧ State.reset.memRead (advance 0x00FFFF 1) = .error (.unmappedAddress 0) := by decide

/-- O12 -/
theorem witness_stopped : State.reset.sfr.getLsbD 5 = false := by decide

/-- O13: a one-byte and a three-byte instruction. -/
theorem witness_bytesAt :
    ((running [0xFF, 0x10, 0x80] 0).sfr.getLsbD 5 = true ∧ (running [0xFF, 0x10, 0x80] 0).bytesAt (busAddr 0 0x8000) [0xFF, 0x10, 0x80] ∧
      decode false false [0xFF, 0x10, 0x80] = .ok (.iwt 15 0x8010, [])) ∧
    ((running [0x71] 0x0200).bytesAt (busAddr 0 0x8000) [0x71] ∧ decode false true [0x71] = .ok (.andI 1, [])) :=
  ⟨⟨by decide, ⟨by decide, by decide, by decide, trivial⟩, by decide⟩, ⟨by decide, trivial⟩, by decide⟩

/-- O14: a fetch that completes, and one that has wrapped to offset 0. -/
theorem witness_fetchByte : (∃ t, (running [0x01] 0).fetchByte = .ok (0x01, t)) ∧ (∃ t, (atEdge 0xFFFF).fetchByte = .ok (0xF1, t)) :=
  ⟨⟨_, rfl⟩, ⟨_, rfl⟩⟩

/-- O14: the one-byte clause with each of its three alternatives (NOT, TO, FROM), and the IWT clause at its boundaries 0xF0 and 0xFE. -/
theorem witness_programCounter :
    ((running [0x4F] 0).runsOpcode 0x4F ∧ (running [0x4F] 0).dreg ≠ 15 ∧ ∃ t, step (running [0x4F] 0) = .next t) ∧
    ((running [0x1F] 0).runsOpcode 0x1F ∧ (0x1F : Byte) < 0x40 ∧ ∃ t, step (running [0x1F] 0) = .next t) ∧
    ((running [0xBF] 0).runsOpcode 0xBF ∧ 0xB0 ≤ (0xBF : Byte) ∧ (0xBF : Byte) ≤ 0xBF ∧ ∃ t, step (running [0xBF] 0) = .next t) ∧
    ((running [0xF0] 0).runsOpcode 0xF0 ∧ ∃ t, step (running [0xF0] 0) = .next t) ∧
    ((running [0xFE] 0).runsOpcode 0xFE ∧ (0xFE : Byte) ≠ 0xFF ∧ ∃ t, step (running [0xFE] 0) = .next t) :=
  ⟨⟨⟨by decide, by decide⟩, by decide, _, rfl⟩, ⟨⟨by decide, by decide⟩, by decide, _, rfl⟩,
   ⟨⟨by decide, by decide⟩, by decide, by decide, _, rfl⟩, ⟨⟨by decide, by decide⟩, _, rfl⟩, ⟨⟨by decide, by decide⟩, by decide, _, rfl⟩⟩
theorem witness_wrapped : (atEdge 0).sfr.getLsbD 5 = true ∧ (atEdge 0).reg 15 = 0 ∧ (atEdge 0).pbr ≤ 0x3F ∧
    0x80 ≤ (0xBF : Byte) ∧ (0xBF : Byte) ≤ 0xBF := by decide

/-- O15: the last unmapped offset of bank 0 and the first mapped one. -/
theorem witness_opcodeFetch :
    ((atEdge 0x7FFF).sfr.getLsbD 5 = true ∧ unmappedRange (atEdge 0x7FFF).pbr ((atEdge 0x7FFF).reg 15)) ∧
    ((atEdge 0x8000).sfr.getLsbD 5 = true ∧ ¬ unmappedRange (atEdge 0x8000).pbr ((atEdge 0x8000).reg 15)) := by
  unfold unmappedRange; decide

/-- O16: the immediate's low byte, its high byte, and neither past the end of the bank. -/
theorem witness_immediateFetch :
    ((atEdge 0xFFFF).runsOpcode 0xF1 ∧ unmappedRange 0 ((0xFFFF : Word) + 1)) ∧
    ((atEdge 0xFFFE).runsOpcode 0xF0 ∧ ¬ unmappedRange 0 ((0xFFFE : Word) + 1) ∧ unmappedRange 0 ((0xFFFE : Word) + 2)) ∧
    ((atEdge 0xFFFD).runsOpcode 0xFF ∧ ¬ unmappedRange 0 ((0xFFFD : Word) + 1) ∧ ¬ unmappedRange 0 ((0xFFFD : Word) + 2)) := by
  unfold unmappedRange State.runsOpcode; decide

/-- O17: an illegal opcode byte, an ALT state that makes one illegal, and the same bytes under a legal ALT state. -/
theorem witness_illegalKey :
    ((running [0x02] 0).runsOpcode 0x02 ∧ illegalKey 0x02 ((running [0x02] 0).sfr.getLsbD 8)) ∧
    ((running [0x7F] 0x0100).runsOpcode 0x7F ∧ illegalKey 0x7F ((running [0x7F] 0x0100).sfr.getLsbD 8)) ∧
    ((running [0xC1] 0x0200).runsOpcode 0xC1 ∧ illegalKey 0xC1 ((running [0xC1] 0x0200).sfr.getLsbD 8)) ∧
    ((running [0x7F] 0x0200).runsOpcode 0x7F ∧ ¬ illegalKey 0x7F ((running [0x7F] 0x0200).sfr.getLsbD 8)) ∧
    ((running [0xC1] 0x0100).runsOpcode 0xC1 ∧ ¬ illegalKey 0xC1 ((running [0xC1] 0x0100).sfr.getLsbD 8)) := by
  unfold illegalKey State.runsOpcode
  refine ⟨⟨?_, ?_⟩, ⟨?_, ?_⟩, ⟨?_, ?_⟩, ⟨?_, ?_⟩, ?_, ?_⟩ <;> decide

/-- O19, O20, O24 to O28, O33, O34: each one-byte opcode without an operand runs, here with both ALT flags set. -/
theorem witness_runs_fixed : ∀ op ∈ [0x00, 0x01, 0x3D, 0x3E, 0x3F, 0x4F, 0x70, 0x95, (0xC0 : Byte)],
    (running [op] 0x0300).flag .g = true ∧ (running [op] 0x0300).memRead (running [op] 0x0300).fetchAddr = .ok op := by decide

/-- O21 to O23: every register of TO, WITH and FROM. -/
theorem witness_runs_selectors : ∀ n : RegIdx, ∀ base ∈ [0x10, 0x20, 0xB0],
    (running [BitVec.ofNat 8 (base + n.val)] 0).flag .g = true ∧
    (running [BitVec.ofNat 8 (base + n.val)] 0).memRead (running [BitVec.ofNat 8 (base + n.val)] 0).fetchAddr =
      .ok (BitVec.ofNat 8 (base + n.val)) := by decide

/-- O29 to O32: the first and the last operand, under the ALT state of each form. -/
theorem witness_runs_andR : ∀ n ∈ [(1 : RegIdx), 15], n ≠ 0 ∧ (running [BitVec.ofNat 8 (0x70 + n.val)] 0).sfr.getLsbD 8 = false ∧
    (running [BitVec.ofNat 8 (0x70 + n.val)] 0).sfr.getLsbD 9 = false ∧
    (running [BitVec.ofNat 8 (0x70 + n.val)] 0).runsOpcode (BitVec.ofNat 8 (0x70 + n.val)) := by unfold State.runsOpcode; decide
theorem witness_runs_xorR : ∀ n ∈ [(1 : RegIdx), 15], n ≠ 0 ∧ (running [BitVec.ofNat 8 (0xC0 + n.val)] 0x0100).sfr.getLsbD 8 = true ∧
    (running [BitVec.ofNat 8 (0xC0 + n.val)] 0x0100).sfr.getLsbD 9 = false ∧
    (running [BitVec.ofNat 8 (0xC0 + n.val)] 0x0100).runsOpcode (BitVec.ofNat 8 (0xC0 + n.val)) := by unfold State.runsOpcode; decide
theorem witness_runs_andI : ∀ n ∈ [(1 : Nibble), 15], n ≠ 0 ∧ (running [BitVec.ofNat 8 (0x70 + n.toNat)] 0x0200).sfr.getLsbD 8 = false ∧
    (running [BitVec.ofNat 8 (0x70 + n.toNat)] 0x0200).sfr.getLsbD 9 = true ∧
    (running [BitVec.ofNat 8 (0x70 + n.toNat)] 0x0200).runsOpcode (BitVec.ofNat 8 (0x70 + n.toNat)) := by unfold State.runsOpcode; decide
theorem witness_runs_xorI : ∀ n ∈ [(1 : Nibble), 15], n ≠ 0 ∧ (running [BitVec.ofNat 8 (0xC0 + n.toNat)] 0x0300).sfr.getLsbD 8 = true ∧
    (running [BitVec.ofNat 8 (0xC0 + n.toNat)] 0x0300).sfr.getLsbD 9 = true ∧
    (running [BitVec.ofNat 8 (0xC0 + n.toNat)] 0x0300).runsOpcode (BitVec.ofNat 8 (0xC0 + n.toNat)) := by unfold State.runsOpcode; decide

/-- O35: a load and a jump with their immediate bytes. -/
theorem witness_runs_iwt : ∀ n ∈ [(0 : RegIdx), 15], (running [BitVec.ofNat 8 (0xF0 + n.val), 0x10, 0x80] 0).runsOpcode (BitVec.ofNat 8 (0xF0 + n.val)) ∧
    (running [BitVec.ofNat 8 (0xF0 + n.val), 0x10, 0x80] 0).memRead (busAddr 0 ((0x8000 : Word) + 1)) = .ok 0x10 ∧
    (running [BitVec.ofNat 8 (0xF0 + n.val), 0x10, 0x80] 0).memRead (busAddr 0 ((0x8000 : Word) + 2)) = .ok 0x80 := by
  unfold State.runsOpcode; decide

/-- O39: a Tick that changes G. -/
theorem witness_go_changes : nextHas (running [0x00] 0) (fun t => t.sfr.getLsbD 5 != (running [0x00] 0).sfr.getLsbD 5) := by decide

/-- O40: a Tick that changes C and OV (MERGE), and one that changes Z (HIB). -/
theorem witness_flags_change :
    nextHas (at8000 [0x70] 0x0020 0 0 [(7, 0xFF00)]) (fun t => t.sfr.getLsbD 2 && t.sfr.getLsbD 4) ∧
    nextHas (running [0xC0] 0) (fun t => t.sfr.getLsbD 1) := by decide

/-- O41: two running states that differ in an inert register, the cycle counter, the cache and the upper half of RAM, and each outcome. -/
theorem witness_sameForEngine :
    SameForEngine (running [0x01] 0) { running [0x01] 0 with rombr := 0x55, cycles := 9, cache := [(0, 0x00)], ram := [(0x20000, 0x00)] } ∧
    (∃ s', step (running [0x01] 0) = .next s') ∧
    SameForEngine (atEdge 0) { atEdge 0 with scmr := 0x01 } ∧ (∃ f, step (atEdge 0) = .fault f) :=
  ⟨⟨rfl, rfl, rfl, rfl, rfl, fun _ _ => rfl, fun n hn => by
      show Memory.unlisted = if n = 0x20000 then 0x00 else Memory.unlisted
      rw [if_neg (by omega)]⟩, ⟨_, rfl⟩, ⟨rfl, rfl, rfl, rfl, rfl, fun _ _ => rfl, fun _ _ => rfl⟩, ⟨_, rfl⟩⟩

/-- O42: a running state that meets the invariant with both latches loaded. -/
theorem witness_invariant : Invariant (at8000 [0x3D] 0x0020 7 7 []) ∧ ∃ t, step (at8000 [0x3D] 0x0020 7 7 []) = .next t :=
  ⟨⟨⟨by decide, by decide, by decide⟩, .inr (.inr rfl)⟩, _, rfl⟩

/-- O43, O51 -/
theorem witness_constructed : ∃ s, construct [0x00, 0xFF] = some s := ⟨_, rfl⟩

/-- O44, O45 -/
theorem witness_roundTrip : (Instr.xorI 15).wf = true ∧ (Instr.xorI 15).admitsAlt true true = true ∧
    decode true true [0xCF, 0x00] = .ok (.xorI 15, [0x00]) := by decide

/-- O47: table words of a one-byte instruction with an ALT condition and of IWT. -/
theorem witness_placed : BuffersOk State.reset ∧ decodeTableWord 16 0x3C5 = some (.xorI 5) ∧ decodeTableWord 24 0x8010FF = some (.iwt 15 0x8010) :=
  ⟨⟨by decide, by decide, by decide⟩, by decide, by decide⟩

/-- O50: driver actions other than Restore that complete. -/
theorem witness_driver : (∃ t, drive (running [0x01] 0) .tick = .done t) ∧ (∃ t, drive State.reset (.writeReg .pbr 0xFF) = .done t) ∧
    ∀ snap, DriverAction.tick ≠ .restore snap :=
  ⟨⟨_, rfl⟩, ⟨_, rfl⟩, fun _ => by simp⟩

end Sys2Proof.Tests
end

/-! Proofs of the state family (10_state.md): flag positions, `write_flags`, and the program counter. -/

/-! ## Reading a flag after a flag write (R15, R17, R18) -/

namespace Sys2Proof.Machine

/-- One entry of a flag list decides its own flag and no other (R18). -/
theorem testFlag_writeFlag (v : Word) (x y : Flag) (b : Bool) :
    testFlag (writeFlag v (x, b)) y = if y = x then b else testFlag v y := by
  have hbit : flagBit y = flagBit x ↔ y = x := ⟨flagBit_injective, congrArg flagBit⟩
  simp only [testFlag, writeFlag_bit, hbit]

/-- A flag that no entry of the list names keeps its value (R18). -/
theorem testFlag_writeFlagList_other {l : List (Flag × Bool)} {x : Flag} (h : ∀ e ∈ l, e.1 ≠ x) (v : Word) :
    testFlag (writeFlagList v l) x = testFlag v x :=
  writeFlagList_bit_other (fun e he hbit => h e he (flagBit_injective hbit)) v

/-- The last entry that names a flag decides it (R18). -/
theorem testFlag_writeFlagList_last (v : Word) (before after : List (Flag × Bool)) (x : Flag) (b : Bool)
    (hlast : ∀ e ∈ after, e.1 ≠ x) : testFlag (writeFlagList v (before ++ (x, b) :: after)) x = b := by
  rw [writeFlagList_append, writeFlagList_cons, testFlag_writeFlagList_other hlast, testFlag_writeFlag, if_pos rfl]

/-- Masking SFR leaves nothing exactly where the flag's bit is clear (R15). -/
theorem and_flagMask_eq_zero_iff (v : Word) (x : Flag) : v &&& flagMask x = 0 ↔ testFlag v x = false := by
  constructor
  · intro h
    have hbit : (v &&& flagMask x).getLsbD (flagBit x) = false := by rw [h]; exact BitVec.getLsbD_zero
    simpa [testFlag, flagMask_bit] using hbit
  · intro h
    apply BitVec.eq_of_getLsbD_eq
    intro k _
    rw [BitVec.getLsbD_and, flagMask_bit]
    by_cases hk : k = flagBit x
    · subst hk
      simp [show v.getLsbD (flagBit x) = false from h]
    · simp [hk]

/-- Testing SFR with a flag's mask is reading the flag (R15, R17). -/
theorem State.flag_eq_mask_test (s : State) (x : Flag) : s.flag x = ((s.sfr &&& flagMask x) != 0) := by
  have hmask := and_flagMask_eq_zero_iff s.sfr x
  rw [State.flag]
  cases hx : testFlag s.sfr x
  · simp [hmask.mpr hx]
  · simpa [hx] using hmask

/-- `write_flags` reaches no control register and not the cycle counter (R18). -/
theorem State.writeFlags_control (s : State) (l : List (Flag × Bool)) : SameControl s (s.writeFlags l) :=
  ⟨rfl, rfl, rfl, rfl, rfl, rfl, rfl, rfl, rfl, rfl⟩

/-- Settles O6: the list is split at the last entry that names the flag; a bit under no named mask is a bit of no named flag. -/
theorem writeFlagsTouchesNamedFlagsOnly : Obligations.WriteFlagsTouchesNamedFlagsOnly := by
  unfold Obligations.WriteFlagsTouchesNamedFlagsOnly
  intro s l
  refine ⟨?_, fun k hk => ?_, fun _ _ => rfl, ⟨rfl, rfl⟩, s.writeFlags_control l, sameBuffers_of_fields rfl rfl rfl⟩
  · rintro before after x b rfl hlast
    exact testFlag_writeFlagList_last s.sfr before after x b hlast
  · have hother : ∀ e ∈ l, flagBit e.1 ≠ k := by
      intro e he hbit
      simpa [flagMask_bit, hbit] using hk e he
    exact writeFlagList_bit_other hother s.sfr

/-- Settles O5: the tables are the listed ones by definition; the mask test and the independence are the flag lemmas above. -/
theorem flagPositionsAreFixed : Obligations.FlagPositionsAreFixed := by
  unfold Obligations.FlagPositionsAreFixed
  refine ⟨?masks, ?positions, State.flag_eq_mask_test, ?independent⟩
  case masks => exact ⟨rfl, rfl, rfl, rfl, rfl, rfl, rfl, rfl, rfl, rfl, rfl, rfl⟩
  case positions => exact fun s => ⟨rfl, rfl, rfl, rfl, rfl, rfl, rfl, rfl, rfl, rfl, rfl, rfl⟩
  case independent => exact fun s x y b => testFlag_writeFlag s.sfr x y b

end Sys2Proof.Machine

/-! ## The opcode byte of a decoded instruction (30_encoding.md R72, R75, R79) -/

namespace Sys2Proof

/-- A long opcode byte selects IWT of its own low nibble (R72, R79). -/
theorem decodeKey_long (alt1 alt2 : Bool) {op : Byte} (h : hasImmediate op = true) (imm : Word) :
    decodeKey (mkKey alt1 alt2 op) imm = some (.iwt (nibbleReg (op.extractLsb' 0 4)) imm) := by
  have hiwt := decodeKey_iwt alt1 alt2 (nibbleReg (op.extractLsb' 0 4)) imm
  rwa [opcode_of_hasImmediate h] at hiwt

/-- A decoded instruction has the opcode byte it was decoded from, and the immediate which that byte announces (R75, R79). -/
theorem decode_opcode {alt1 alt2 : Bool} {op : Byte} {rest rest' : List Byte} {i : Instr}
    (h : decode alt1 alt2 (op :: rest) = .ok (i, rest')) :
    i.opcode = op ∧ i.immediateBytes.length = if hasImmediate op then 2 else 0 := by
  rcases decode_cases alt1 alt2 op rest with ⟨himm, lo, hi, _, -, hd⟩ | ⟨-, -, hd⟩ | ⟨himm, hd⟩ <;> rw [hd] at h
  · obtain ⟨hkey, -⟩ := decodeAnswer_ok h
    rw [decodeKey_long alt1 alt2 himm] at hkey
    cases hkey
    exact ⟨opcode_of_hasImmediate himm _, by rw [himm]; rfl⟩
  · cases h
  · obtain ⟨hkey, -⟩ := decodeAnswer_ok h
    obtain ⟨hop, hbytes, -, -⟩ := decodeKey_short alt1 alt2 op himm i hkey
    exact ⟨hop, by rw [hbytes, himm]; rfl⟩

end Sys2Proof

/-! ## The program counter (R13) -/

namespace Sys2Proof.Machine

/-- The bytes fetched for an instruction begin with its opcode byte (R93). -/
theorem State.instrBytes_head {s : State} {op : Byte} {bytes : List Byte} (h : s.instrBytes op = .ok bytes) :
    ∃ rest, bytes = op :: rest := by
  cases himm : hasImmediate op
  · rw [State.instrBytes_short s himm] at h
    cases h
    exact ⟨[], rfl⟩
  · rcases s.instrBytes_long himm with ⟨lo, hi, -, -, hb⟩ | ⟨-, hb⟩ | ⟨_, -, -, hb⟩ <;> rw [hb] at h <;> cases h
    exact ⟨[lo, hi], rfl⟩

/-- A fetched instruction has the opcode byte at the fetch address, and the immediate which that byte announces (R93, R96). -/
theorem State.fetchInstr_opcode {s s1 : State} {i : Instr} {op : Byte} (hf : s.fetchInstr = .ok (i, s1))
    (hop : s.memRead s.fetchAddr = .ok op) :
    i.opcode = op ∧ i.immediateBytes.length = if hasImmediate op then 2 else 0 := by
  obtain ⟨-, op', bytes, rest, hop', hbytes, hd⟩ := State.fetchInstr_ok hf
  rw [hop] at hop'
  cases hop'
  obtain ⟨tl, rfl⟩ := State.instrBytes_head hbytes
  exact decode_opcode hd

/-- An unmapped fetch address faults before anything is decoded (R161, R164). -/
theorem State.fetchInstr_unmapped {s : State} (h : isMapped s.fetchAddr = false) :
    s.fetchInstr = .error (.unmappedAddress s.fetchAddr) := by
  simp [State.fetchInstr, State.fetchByte, s.memRead_unmapped h]

/-- The low half of a bank in 0x00-0x3F or 0x80-0xBF is unmapped (R42, R161). -/
theorem isMapped_lowHalf {bank : Byte} {offset : Word} (hbank : bank ≤ 0x3F ∨ (0x80 ≤ bank ∧ bank ≤ 0xBF))
    (hoff : offset < 0x8000) : isMapped (busAddr bank offset) = false := by
  have hbank' : bank.toNat ≤ 0x3F ∨ (0x80 ≤ bank.toNat ∧ bank.toNat ≤ 0xBF) := hbank
  have hoff' : offset.toNat < 0x8000 := hoff
  have hlo : isLoRom (busAddr bank offset) = false := by
    rw [← Bool.not_eq_true, isLoRom_iff, offsetOf_busAddr]
    omega
  have hhi : isHiRom (busAddr bank offset) = false := by
    rw [← Bool.not_eq_true, isHiRom_iff, bankOf_busAddr]
    omega
  have hram : isRam (busAddr bank offset) = false := by
    rw [← Bool.not_eq_true, isRam_iff, bankOf_busAddr]
    omega
  simp [isMapped, hlo, hhi, hram]

/-- Phase 1 moves R15 one up modulo 65536 (R13, R93). -/
theorem State.afterFetch_pc_toNat (s : State) : (s.afterFetch.reg 15).toNat = ((s.reg 15).toNat + 1) % 65536 := by
  rw [State.afterFetch_pc]
  exact BitVec.toNat_add _ _

/-- The general register phase 4 of an instruction writes, apart from IWT's advance of R15: IWT's own operand, the DREG
snapshot for a data-processing instruction, none for the others (R98, R150). -/
def State.destination (s : State) : Instr → Option RegIdx
  | .stop | .nop | .toR _ | .withR _ | .fromR _ | .alt1 | .alt2 | .alt3 => none
  | .notR | .merge | .andR _ | .andI _ | .sex | .hib | .xorR _ | .xorI _ => some s.dreg
  | .iwt n _ => some n

/-- The opcode byte of a data-processing instruction lies in 0x40-0xEF and is not FROM's (R75). -/
def IsDataOpcode (op : Byte) : Prop := 0x40 ≤ op ∧ op < 0xF0 ∧ ¬(0xB0 ≤ op ∧ op ≤ 0xBF)

theorem isDataOpcode_andR (n : RegIdx) : IsDataOpcode (Instr.andR n).opcode := by
  unfold IsDataOpcode; revert n; decide

theorem isDataOpcode_xorR (n : RegIdx) : IsDataOpcode (Instr.xorR n).opcode := by
  unfold IsDataOpcode; revert n; decide

/-- R15 is the destination of byte 0xFF and, where DREG is 15, of a data-processing opcode; of no other (R75, R101, R151). -/
theorem State.opcode_of_destination_pc {s : State} {i : Instr} (h : s.destination i = some 15) :
    i.opcode = 0xFF ∨ (s.dreg = 15 ∧ IsDataOpcode i.opcode) := by
  cases i with
  | stop | nop | toR | withR | fromR | alt1 | alt2 | alt3 => cases h
  | notR | merge | sex | hib => exact .inr ⟨Option.some.inj h, by unfold IsDataOpcode; decide⟩
  | andR n => exact .inr ⟨Option.some.inj h, isDataOpcode_andR n⟩
  | xorR n => exact .inr ⟨Option.some.inj h, isDataOpcode_xorR n⟩
  | andI n => exact .inr ⟨Option.some.inj h, isDataOpcode_andR (nibbleReg n)⟩
  | xorI n => exact .inr ⟨Option.some.inj h, isDataOpcode_xorR (nibbleReg n)⟩
  | iwt n imm =>
    cases Option.some.inj h
    exact .inl rfl

/-- R15 moves past the immediate unless it is the destination (R13, R150). -/
theorem exec_pc {i : Instr} {s t : State} (h : exec i s = .next t) (hdest : s.destination i ≠ some 15) :
    t.reg 15 = s.reg 15 + BitVec.ofNat 16 i.immediateBytes.length := by
  cases i with
  | stop | nop | toR | withR | fromR | alt1 | alt2 | alt3 =>
    cases h
    rw [Instr.immediateBytes, List.length_nil, BitVec.add_zero]
    rfl
  | notR | merge | andR | andI | sex | hib | xorR | xorI =>
    have hne : (15 : RegIdx) ≠ s.dreg := fun e => hdest (congrArg some e.symm)
    obtain ⟨v, l, rfl⟩ : ∃ v l, t = s.writeResult v l := by
      cases h
      exact ⟨_, _, rfl⟩
    rw [Instr.immediateBytes, List.length_nil, BitVec.add_zero, State.writeResult_reg, if_neg hne]
  | iwt n imm =>
    have hne : (15 : RegIdx) ≠ n := fun e => hdest (congrArg some e.symm)
    rw [exec_iwt_eq] at h
    cases h
    rw [State.reg_setReg_other _ _ hne]
    simp [Instr.immediateBytes, BitVec.add_assoc]

/-- No meaning writes PBR (R13). -/
theorem exec_pbr {i : Instr} {s t : State} (h : exec i s = .next t) : t.pbr = s.pbr := by
  cases i <;> cases h <;> rfl

/-- What a running Tick that answers a next state did, seen from its opcode byte (R92, R93, R96). -/
theorem step_of_runsOpcode {s t : State} {op : Byte} (hrun : s.runsOpcode op) (h : step s = .next t) :
    ∃ i, exec i s.afterFetch = .next t ∧ i.opcode = op ∧
      i.immediateBytes.length = if hasImmediate op then 2 else 0 := by
  obtain ⟨hg, hop⟩ := hrun
  rcases step_next_cases h with ⟨hstopped, -⟩ | ⟨-, i, hf, hexec⟩
  · rw [hg] at hstopped
    cases hstopped
  · exact ⟨i, hexec, State.fetchInstr_opcode hf hop⟩

/-- R15 counts the bytes fetched, unless the opcode is one that writes it as its destination (R13). -/
theorem step_pc {s t : State} {op : Byte} (hrun : s.runsOpcode op) (h : step s = .next t) (hiwt : op ≠ 0xFF)
    (hdata : s.dreg = 15 → ¬ IsDataOpcode op) :
    (t.reg 15).toNat = ((s.reg 15).toNat + if hasImmediate op then 3 else 1) % 65536 := by
  obtain ⟨i, hexec, hop, hlen⟩ := step_of_runsOpcode hrun h
  have hdest : s.afterFetch.destination i ≠ some 15 := by
    intro hpc
    rcases State.opcode_of_destination_pc hpc with hff | ⟨hdreg, hrange⟩
    · exact hiwt (hop.symm.trans hff)
    · exact hdata hdreg (hop ▸ hrange)
  rw [exec_pc hexec hdest, BitVec.toNat_add, State.afterFetch_pc_toNat, hlen]
  cases hasImmediate op <;> simp

/-- Settles O14: a completed fetch is `afterFetch`; a Tick's R15 is `step_pc`, one or three up by the opcode's length; a
fetch address in the low half of its bank is unmapped. -/
theorem programCounterCountsFetchedBytes : Obligations.ProgramCounterCountsFetchedBytes := by
  unfold Obligations.ProgramCounterCountsFetchedBytes
  refine ⟨fun s t b h => ?fetch, fun s t op hrun h => ⟨?bank, fun hop hdest => ?short, fun hop hne => ?long⟩,
    fun s hg hpc hbank => ?wrapped⟩
  case fetch =>
    rcases s.fetchByte_cases with ⟨_, -, hf⟩ | ⟨-, hf⟩ <;> rw [hf] at h <;> cases h
    exact ⟨s.afterFetch_pc_toNat, rfl⟩
  case bank =>
    obtain ⟨i, hexec, -, -⟩ := step_of_runsOpcode hrun h
    exact (exec_pbr hexec).trans s.afterFetch_pbr
  case short =>
    have himm : hasImmediate op = false := by
      rw [← Bool.not_eq_true, hasImmediate_iff]
      exact Nat.not_le.mpr hop
    have hiwt : op ≠ 0xFF := by
      rintro rfl
      exact absurd hop (by decide)
    have hdata : s.dreg = 15 → ¬ IsDataOpcode op := by
      rintro hdreg ⟨hge, -, hfrom⟩
      rcases hdest with hd | hd | hd
      · exact hd hdreg
      · exact BitVec.not_lt.mpr hge hd
      · exact hfrom hd
    have hpc := step_pc hrun h hiwt hdata
    rwa [himm] at hpc
  case long =>
    have hpc := step_pc hrun h hne (fun _ ⟨_, hlt, _⟩ => BitVec.not_le.mpr hlt hop)
    rwa [(hasImmediate_iff op).mpr hop] at hpc
  case wrapped =>
    have haddr : s.fetchAddr = busAddr s.pbr 0 := congrArg (busAddr s.pbr) hpc
    have hmap : isMapped s.fetchAddr = false := haddr ▸ isMapped_lowHalf hbank (by decide)
    rw [← haddr]
    exact step_of_fault hg (State.fetchInstr_unmapped hmap)

end Sys2Proof.Machine

/-! ## RAM reads (20_memory.md R44) -/

namespace Sys2Proof.Machine

/-- The RAM banks are RAM at every offset (R42). -/
theorem isRam_busAddr {bank : Byte} (h : bank = 0x70 ∨ bank = 0x71) (offset : Word) :
    isRam (busAddr bank offset) = true := by
  rw [isRam_iff, bankOf_busAddr]
  rcases h with rfl | rfl <;> decide

/-- The decoder answers RAM on its RAM case: the ROM cases before it exclude that case (R42). -/
theorem determineBus_of_isRam {a : BusAddr} (h : isRam a = true) : determineBus a = .ok .ram := by
  obtain ⟨-, hlo, hhi⟩ := bus_cases_disjoint a
  rcases determineBus_cases a with ⟨-, hlo' | hhi'⟩ | ⟨hram, -⟩ | ⟨-, hm⟩
  · exact absurd ⟨hlo', h⟩ hlo
  · exact absurd ⟨hhi', h⟩ hhi
  · exact hram
  · simp [isMapped, h] at hm

theorem State.memRead_of_ram (s : State) {a : BusAddr} (h : determineBus a = .ok .ram) :
    s.memRead a = .ok (s.ram.read (ramIndex a)) := by
  simp [State.memRead, h]

theorem ramIndex_busAddr (bank : Byte) (offset : Word) :
    ramIndex (busAddr bank offset) = (bank.toNat - 0x70) * 0x10000 + offset.toNat := by
  rw [ramIndex, bankOf_busAddr, offsetOf_busAddr]

/-- Settles O10: the decoder answers RAM for both banks, so the byte is the one at the RAM index, which is inside the
reachable half of the buffer. -/
theorem ramBanksReadTheirIndex : Obligations.RamBanksReadTheirIndex := by
  unfold Obligations.RamBanksReadTheirIndex
  intro s bank offset hbank
  have hbus : determineBus (busAddr bank offset) = .ok .ram := determineBus_of_isRam (isRam_busAddr hbank offset)
  rw [← ramIndex_busAddr]
  exact ⟨s.memRead_of_ram hbus, Nat.le_of_lt_succ (ramIndex_lt hbus)⟩

end Sys2Proof.Machine

/-! ## The latches through an instruction (40_engine_step.md R95) -/

namespace Sys2Proof.Machine

/-! What each update of phases 2 to 4 does to the pair of latches. -/

theorem State.consumeSticky_latches (s : State) : Latches s.consumeSticky 0 0 :=
  ⟨s.consumeSticky_sreg, s.consumeSticky_dreg⟩

section
variable {s : State} {a d : RegIdx} (h : Latches s a d)
include h

theorem Latches.setSreg (n : RegIdx) : Latches (s.setSreg n) n d := by
  obtain ⟨-, hdreg⟩ := h
  exact ⟨s.setSreg_sreg n, hdreg⟩

theorem Latches.setDreg (n : RegIdx) : Latches (s.setDreg n) a n := by
  obtain ⟨hsreg, -⟩ := h
  exact ⟨hsreg, s.setDreg_dreg n⟩

theorem Latches.writeFlags (l : List (Flag × Bool)) : Latches (s.writeFlags l) a d := h

theorem Latches.setReg (n : RegIdx) (v : Word) : Latches (s.setReg n v) a d := h

theorem Latches.incPc : Latches s.incPc a d := by
  rw [State.incPc_eq]
  exact h.setReg 15 _

end

/-- Settles O36: ALT1 to ALT3 restore the snapshots, a data-processing instruction ends with both latches 0, and every
other instruction updates the state after phases 2 and 3, whose latches are 0. -/
theorem latchesAfterEachInstructionClass : Obligations.LatchesAfterEachInstructionClass := by
  unfold Obligations.LatchesAfterEachInstructionClass
  refine ⟨State.consumeSticky_latches, fun i s => ?_⟩
  have hzero : Latches s.consumeSticky 0 0 := s.consumeSticky_latches
  cases i with
  | alt1 | alt2 | alt3 => exact ⟨_, rfl, s.applyPrefix_latches _⟩
  | toR n => exact ⟨_, exec_toR_eq s n, hzero.setDreg n⟩
  | fromR n => exact ⟨_, exec_fromR_eq s n, hzero.setSreg n⟩
  | withR n => exact ⟨_, exec_withR_eq s n, (hzero.setSreg n).setDreg n⟩
  | stop => exact ⟨_, exec_stop_eq s, hzero.writeFlags _⟩
  | nop => exact ⟨_, exec_nop_eq s, hzero⟩
  | notR | merge | andR | andI | sex | hib | xorR | xorI => exact ⟨_, rfl, s.writeResult_latches _ _⟩
  | iwt n imm => exact ⟨_, exec_iwt_eq s n imm, hzero.incPc.incPc.setReg n imm⟩

end Sys2Proof.Machine

/-! Proofs of the remaining statements: the decoder's round trip, the Tick, the frame of every instruction, the bus, and
the host driver. -/

/-! ## The round trip of the decoder (30_encoding.md R70 to R81) -/

namespace Sys2Proof

/-- The opcode byte of a well-formed instruction selects it, under every ALT state its row admits (R75). -/
theorem decodeKey_opcode (i : Instr) : Laws.KeySelects.Statement i := by
  cases i with
  | stop => exact Laws.KeySelects.stop
  | nop => exact Laws.KeySelects.nop
  | toR n => exact Laws.KeySelects.toR n
  | withR n => exact Laws.KeySelects.withR n
  | alt1 => exact Laws.KeySelects.alt1
  | alt2 => exact Laws.KeySelects.alt2
  | alt3 => exact Laws.KeySelects.alt3
  | notR => exact Laws.KeySelects.notR
  | merge => exact Laws.KeySelects.merge
  | andR n => exact Laws.KeySelects.andR n
  | andI n => exact Laws.KeySelects.andI n
  | sex => exact Laws.KeySelects.sex
  | fromR n => exact Laws.KeySelects.fromR n
  | hib => exact Laws.KeySelects.hib
  | xorR n => exact Laws.KeySelects.xorR n
  | xorI n => exact Laws.KeySelects.xorI n
  | iwt n imm => exact Laws.KeySelects.iwt n imm

/-- An encoding is one byte long, or three where the opcode byte announces an immediate (R70, R79). -/
theorem encode_length (i : Instr) : Laws.EncodedLength.Statement i := by
  cases i with
  | stop => exact Laws.EncodedLength.stop
  | nop => exact Laws.EncodedLength.nop
  | toR n => exact Laws.EncodedLength.toR n
  | withR n => exact Laws.EncodedLength.withR n
  | alt1 => exact Laws.EncodedLength.alt1
  | alt2 => exact Laws.EncodedLength.alt2
  | alt3 => exact Laws.EncodedLength.alt3
  | notR => exact Laws.EncodedLength.notR
  | merge => exact Laws.EncodedLength.merge
  | andR n => exact Laws.EncodedLength.andR n
  | andI n => exact Laws.EncodedLength.andI n
  | sex => exact Laws.EncodedLength.sex
  | fromR n => exact Laws.EncodedLength.fromR n
  | hib => exact Laws.EncodedLength.hib
  | xorR n => exact Laws.EncodedLength.xorR n
  | xorI n => exact Laws.EncodedLength.xorI n
  | iwt n imm => exact Laws.EncodedLength.iwt n imm

/-- A short opcode byte's instruction has no immediate, a long one's has two bytes (R70, R79). -/
theorem immediateBytes_cases (i : Instr) :
    (hasImmediate i.opcode = false ∧ i.immediateBytes = []) ∨
    (hasImmediate i.opcode = true ∧ ∃ lo hi, i.immediateBytes = [lo, hi]) := by
  have hlen : i.immediateBytes.length + 1 = if hasImmediate i.opcode then 3 else 1 := encode_length i
  cases himm : hasImmediate i.opcode <;> rw [himm] at hlen
  · exact .inl ⟨rfl, List.eq_nil_of_length_eq_zero (Nat.succ.inj hlen)⟩
  · exact .inr ⟨rfl, List.length_eq_two.mp (Nat.succ.inj hlen)⟩

theorem decode_short (alt1 alt2 : Bool) {op : Byte} (h : hasImmediate op = false) (rest : List Byte) :
    decode alt1 alt2 (op :: rest) = decodeAnswer alt1 alt2 op rest (decodeKey (mkKey alt1 alt2 op) 0) := by
  simp [decode, h]

theorem decode_long (alt1 alt2 : Bool) {op : Byte} (h : hasImmediate op = true) (lo hi : Byte) (rest : List Byte) :
    decode alt1 alt2 (op :: lo :: hi :: rest) =
      decodeAnswer alt1 alt2 op rest (decodeKey (mkKey alt1 alt2 op) (wordOfBytes lo hi)) := by
  simp [decode, h]

/-- Decoding what was encoded, under an ALT state the row admits, gives the instruction back (R75, R78). -/
theorem decode_encode {i : Instr} {alt1 alt2 : Bool} (hwf : i.wf = true) (halt : i.admitsAlt alt1 alt2 = true)
    (rest : List Byte) : decode alt1 alt2 (encode i ++ rest) = .ok (i, rest) := by
  have hkey : decodeKey (mkKey alt1 alt2 i.opcode) (Laws.immediateWord i) = some i := decodeKey_opcode i alt1 alt2 hwf halt
  rcases immediateBytes_cases i with ⟨himm, hbytes⟩ | ⟨himm, lo, hi, hbytes⟩ <;>
    simp only [Laws.immediateWord, hbytes] at hkey
  · rw [encode, hbytes, List.singleton_append, decode_short alt1 alt2 himm, hkey, decodeAnswer]
  · rw [encode, hbytes]
    exact (decode_long alt1 alt2 himm lo hi rest).trans (congrArg (decodeAnswer alt1 alt2 i.opcode rest) hkey)

/-- Settles O44: the opcode byte selects the instruction, and the immediate is read back from its own two bytes. -/
theorem decodeOfEncodeIsIdentity : Obligations.DecodeOfEncodeIsIdentity := by
  unfold Obligations.DecodeOfEncodeIsIdentity
  exact fun _ _ _ rest hwf halt => decode_encode hwf halt rest

/-- The encoding of a long opcode byte's instruction is the byte and the immediate's two bytes (R74 b, R79). -/
theorem encode_of_hasImmediate {op : Byte} (h : hasImmediate op = true) (lo hi : Byte) :
    encode (.iwt (nibbleReg (op.extractLsb' 0 4)) (wordOfBytes lo hi)) = [op, lo, hi] := by
  obtain ⟨hlo, hhi⟩ := extract_wordOfBytes lo hi
  rw [encode, opcode_of_hasImmediate h, Instr.immediateBytes, hlo, hhi]

/-- Settles O45: a long opcode byte selects IWT, whose immediate is the two bytes after it; a short one is the whole
encoding of what it selects. -/
theorem decodedBytesAreTheEncoding : Obligations.DecodedBytesAreTheEncoding := by
  unfold Obligations.DecodedBytesAreTheEncoding
  rintro alt1 alt2 (_ | ⟨op, tail⟩) rest i h
  · cases h
  rcases decode_cases alt1 alt2 op tail with ⟨himm, lo, hi, tail', rfl, hd⟩ | ⟨-, -, hd⟩ | ⟨himm, hd⟩ <;> rw [hd] at h
  · obtain ⟨hkey, rfl⟩ := decodeAnswer_ok h
    rw [decodeKey_long alt1 alt2 himm] at hkey
    cases hkey
    exact ⟨rfl, rfl, by rw [encode_of_hasImmediate himm]; rfl⟩
  · cases h
  · obtain ⟨hkey, rfl⟩ := decodeAnswer_ok h
    obtain ⟨hop, hbytes, hwf, halt⟩ := decodeKey_short alt1 alt2 op himm i hkey
    exact ⟨hwf, halt, by rw [encode, hop, hbytes]; rfl⟩

/-- Settles O46: each legal word is an encoding, so the round trip decodes it; the two illegal keys select no row. -/
theorem specWordsDecode : Obligations.SpecWordsDecode := by
  unfold Obligations.SpecWordsDecode
  have word {alt1 alt2 : Bool} (i : Instr) (hwf : i.wf = true) (halt : i.admitsAlt alt1 alt2 = true) :
      decode alt1 alt2 (encode i ++ []) = .ok (i, []) := decode_encode hwf halt []
  exact ⟨word .stop rfl rfl, word .nop rfl rfl, word (.toR 15) rfl rfl, word (.withR 10) rfl rfl,
    word (.fromR 15) rfl rfl, word .alt1 rfl rfl, word .alt2 rfl rfl, word .alt3 rfl rfl, word .notR rfl rfl,
    word .merge rfl rfl, word (.andR 1) rfl rfl, word (.andI 1) rfl rfl, word .sex rfl rfl, word .hib rfl rfl,
    word (.xorR 15) rfl rfl, word (.xorI 1) rfl rfl, word (.iwt 0 0x3412) rfl rfl, by decide, by decide⟩

end Sys2Proof

/-! ## What every instruction leaves unchanged (40_engine_step.md R94 to R99) -/

namespace Sys2Proof.Machine

/-- Every instruction answers a next state. -/
theorem exec_completes (i : Instr) (s : State) : ∃ t, exec i s = .next t := by
  cases i <;> exact ⟨_, rfl⟩

/-- No meaning writes a buffer (R29, R52). -/
theorem exec_buffers {i : Instr} {s t : State} (h : exec i s = .next t) :
    t.rom = s.rom ∧ t.ram = s.ram ∧ t.cache = s.cache := by
  cases i <;> cases h <;> exact ⟨rfl, rfl, rfl⟩

theorem exec_sameBuffers {i : Instr} {s t : State} (h : exec i s = .next t) : SameBuffers s t := by
  obtain ⟨hrom, hram, hcache⟩ := exec_buffers h
  exact sameBuffers_of_fields hrom hram hcache

/-- No meaning writes a control register or the cycle counter (R20, R27). -/
theorem exec_sameControl {i : Instr} {s t : State} (h : exec i s = .next t) : SameControl s t := by
  cases i <;> cases h <;> exact ⟨rfl, rfl, rfl, rfl, rfl, rfl, rfl, rfl, rfl, rfl⟩

/-- The general registers an instruction writes: its destination, and R15 where it has an immediate to pass (R98, R150). -/
def State.writtenRegs (s : State) (i : Instr) : List RegIdx :=
  match i with
  | .iwt n _ => [n, 15]
  | i => (s.destination i).toList

/-- Every other general register is kept (R98). -/
theorem exec_sameRegs {i : Instr} {s t : State} (h : exec i s = .next t) : SameRegsBut (s.writtenRegs i) s t := by
  intro j hj
  cases i with
  | stop | nop | toR | withR | fromR | alt1 | alt2 | alt3 => cases h; rfl
  | notR | merge | andR | andI | sex | hib | xorR | xorI =>
    have hne : j ≠ s.dreg := fun e => hj (List.mem_singleton.mpr e)
    obtain ⟨v, l, rfl⟩ : ∃ v l, t = s.writeResult v l := by
      cases h
      exact ⟨_, _, rfl⟩
    rw [State.writeResult_reg, if_neg hne]
  | iwt n imm =>
    have hn : j ≠ n := fun e => hj (e ▸ List.mem_cons_self)
    have hpc : j ≠ 15 := fun e => hj (e ▸ List.mem_cons_of_mem _ List.mem_cons_self)
    rw [exec_iwt_eq] at h
    cases h
    simp only [State.incPc_eq]
    rw [State.reg_setReg_other _ _ hn, State.reg_setReg_other _ _ hpc, State.reg_setReg_other _ _ hpc,
      State.consumeSticky_reg]

/-- The flags an instruction writes: ALT1 and ALT2 in phase 2, its own in phase 4 (R94, R110, R123 to R125, R131 to R139). -/
def changedFlags : Instr → List Flag
  | .stop => [.g, .alt1, .alt2]
  | .merge => [.z, .c, .s, .ov, .alt1, .alt2]
  | .notR | .andR _ | .andI _ | .sex | .hib | .xorR _ | .xorI _ => [.z, .s, .alt1, .alt2]
  | .nop | .toR _ | .withR _ | .fromR _ | .alt1 | .alt2 | .alt3 | .iwt _ _ => [.alt1, .alt2]

theorem alt_mem_changedFlags (i : Instr) : .alt1 ∈ changedFlags i ∧ .alt2 ∈ changedFlags i := by
  cases i <;> exact ⟨by simp [changedFlags], by simp [changedFlags]⟩

/-- SFR after an instruction is phase 2's clear and then one flag write (R94, R130). -/
theorem exec_sfr {i : Instr} {s t : State} (h : exec i s = .next t) :
    ∃ l, t.sfr = writeFlagList s.consumeSticky.sfr l ∧ ∀ e ∈ l, e.1 ∈ changedFlags i := by
  cases i with
  | nop | toR | withR | fromR | iwt => cases h; exact ⟨[], rfl, by simp⟩
  | stop | alt1 | alt2 | alt3 => cases h; exact ⟨_, rfl, by simp [changedFlags]⟩
  | notR | andR | andI | sex | xorR | xorI => cases h; exact ⟨_, rfl, by simp [changedFlags, flagsWord]⟩
  | hib => cases h; exact ⟨_, rfl, by simp [changedFlags, flagsByte]⟩
  | merge => cases h; exact ⟨_, rfl, by simp [changedFlags, flagsMerge]⟩

/-- Every other bit of SFR is kept (R18, R19). -/
theorem exec_sameSfr {i : Instr} {s t : State} (h : exec i s = .next t) :
    SameSfrBut ((changedFlags i).map flagBit) s t := by
  intro k hk
  have hother : ∀ x ∈ changedFlags i, flagBit x ≠ k := fun x hx e => hk (List.mem_map.mpr ⟨x, hx, e⟩)
  obtain ⟨halt1, halt2⟩ := alt_mem_changedFlags i
  have hk8 : k ≠ 8 := (hother _ halt1).symm
  have hk9 : k ≠ 9 := (hother _ halt2).symm
  obtain ⟨l, ht, hl⟩ := exec_sfr h
  rw [ht, writeFlagList_bit_other (fun e he => hother _ (hl e he)), State.consumeSticky_bit, if_neg (by omega)]

/-- ALT1 and ALT2 after an instruction are the ones which that instruction names (R94, R123 to R125). -/
theorem exec_altFlags {i : Instr} {s t : State} (h : exec i s = .next t) :
    AltFlags t (decide (i = .alt1 ∨ i = .alt3)) (decide (i = .alt2 ∨ i = .alt3)) := by
  have hclear (k : Nat) := s.consumeSticky_bit k
  cases i with
  | nop | toR | withR | fromR | iwt => cases h; exact ⟨hclear 8, hclear 9⟩
  | stop => cases h; exact ⟨(writeFlag_bit _ .g false 8).trans (hclear 8), (writeFlag_bit _ .g false 9).trans (hclear 9)⟩
  | alt1 => cases h; exact ⟨writeFlag_bit _ .alt1 true 8, (writeFlag_bit _ .alt1 true 9).trans (hclear 9)⟩
  | alt2 => cases h; exact ⟨(writeFlag_bit _ .alt2 true 8).trans (hclear 8), writeFlag_bit _ .alt2 true 9⟩
  | alt3 =>
    cases h
    exact ⟨(writeFlag_bit _ .alt2 true 8).trans (writeFlag_bit _ .alt1 true 8), writeFlag_bit _ .alt2 true 9⟩
  | notR | andR | andI | sex | hib | xorR | xorI => cases h; exact ⟨s.writeResult_zs_bit _ _ _ 8, s.writeResult_zs_bit _ _ _ 9⟩
  | merge => cases h; exact ⟨s.writeResult_merge_bit _ _ _ _ _ 8, s.writeResult_merge_bit _ _ _ _ _ 9⟩

/-- Settles O37: phase 2 clears both flags, and only ALT1 to ALT3 write one afterwards. -/
theorem altFlagsLastOneInstruction : Obligations.AltFlagsLastOneInstruction := by
  unfold Obligations.AltFlagsLastOneInstruction
  intro i s
  obtain ⟨t, ht⟩ := exec_completes i s
  exact ⟨t, ht, exec_altFlags ht⟩

/-- Every row of O36's table of latches keeps the selection (R95, R120 to R125). -/
theorem exec_selectionOk {i : Instr} {s t : State} (hsel : SelectionOk s) (h : exec i s = .next t) : SelectionOk t := by
  obtain ⟨-, hall⟩ := latchesAfterEachInstructionClass
  obtain ⟨t', ht', hlatches⟩ := hall i s
  rw [h] at ht'
  cases ht'
  cases i with
  | alt1 | alt2 | alt3 =>
    obtain ⟨hsreg, hdreg⟩ := hlatches
    rwa [SelectionOk, hsreg, hdreg]
  | toR n =>
    obtain ⟨hsreg, -⟩ := hlatches
    exact .inl hsreg
  | fromR n =>
    obtain ⟨-, hdreg⟩ := hlatches
    exact .inr (.inl hdreg)
  | withR n =>
    obtain ⟨hsreg, hdreg⟩ := hlatches
    exact .inr (.inr (hsreg.trans hdreg.symm))
  | stop | nop | notR | merge | andR | andI | sex | hib | xorR | xorI | iwt =>
    obtain ⟨hsreg, -⟩ := hlatches
    exact .inl hsreg

end Sys2Proof.Machine

/-! ## What every Tick keeps (40_engine_step.md R90 to R104) -/

namespace Sys2Proof.Machine

/-- A stopped Tick changes nothing (R91). -/
theorem step_of_stopped {s : State} (hg : s.flag .g = false) : step s = .next s := by
  simp [step, hg]

/-- Settles O12: bit 5 is G. -/
theorem stoppedTickChangesNothing : Obligations.StoppedTickChangesNothing := by
  unfold Obligations.StoppedTickChangesNothing
  exact fun _ hg => step_of_stopped hg

/-- A Tick faults only where a running engine's fetch faults: no meaning does (R160, R164). -/
theorem step_fault_cases {s : State} {f : Fault} (h : step s = .fault f) :
    s.flag .g = true ∧ s.fetchInstr = .error f := by
  cases hg : s.flag .g
  · rw [step_of_stopped hg] at h
    cases h
  · cases hf : s.fetchInstr with
    | error f' =>
      rw [step_of_fault hg hf] at h
      cases h
      exact ⟨rfl, rfl⟩
    | ok p =>
      obtain ⟨i, s1⟩ := p
      obtain ⟨rfl, -⟩ := State.fetchInstr_ok hf
      obtain ⟨t, ht⟩ := exec_completes i s.afterFetch
      rw [step_of_fetch hg hf, ht] at h
      cases h

/-- No Tick writes a buffer (R29, R52). -/
theorem step_buffers {s t : State} (h : step s = .next t) : t.rom = s.rom ∧ t.ram = s.ram ∧ t.cache = s.cache := by
  rcases step_next_cases h with ⟨-, rfl⟩ | ⟨-, i, -, hexec⟩
  · exact ⟨rfl, rfl, rfl⟩
  · exact exec_buffers (s := s.afterFetch) hexec

/-- No Tick writes a control register or the cycle counter (R20, R27). -/
theorem step_sameControl {s t : State} (h : step s = .next t) : SameControl s t := by
  rcases step_next_cases h with ⟨-, rfl⟩ | ⟨-, i, -, hexec⟩
  · exact ⟨rfl, rfl, rfl, rfl, rfl, rfl, rfl, rfl, rfl, rfl⟩
  · exact exec_sameControl (s := s.afterFetch) hexec

theorem BuffersOk.of_fields {s t : State} (hs : BuffersOk s) (h : t.rom = s.rom ∧ t.ram = s.ram ∧ t.cache = s.cache) :
    BuffersOk t := by
  obtain ⟨hrom, hram, hcache⟩ := h
  rwa [BuffersOk, hrom, hram, hcache]

/-- Settles O42: no Tick writes a buffer, and every row of O36's latch table keeps the selection. -/
theorem tickKeepsInvariant : Obligations.TickKeepsInvariant := by
  unfold Obligations.TickKeepsInvariant
  rintro s t ⟨hbuf, hsel⟩ h
  refine ⟨hbuf.of_fields (step_buffers h), ?_⟩
  rcases step_next_cases h with ⟨-, rfl⟩ | ⟨-, i, -, hexec⟩
  · exact hsel
  · exact exec_selectionOk (s := s.afterFetch) hsel hexec

end Sys2Proof.Machine

/-! ## Inert state (10_state.md R21, R27; 20_memory.md R47, R61) -/

namespace Sys2Proof.Machine

/-- `s` with the inert registers, the cycle counter and the buffers of `x`. -/
def State.withInertOf (s x : State) : State := { x with r := s.r, sfr := s.sfr, pbr := s.pbr, sreg := s.sreg, dreg := s.dreg }

/-- No meaning reads what `withInertOf` exchanges, and none changes it (R21, R27, R52). -/
theorem exec_withInertOf {i : Instr} {s s' : State} (h : exec i s = .next s') (x : State) :
    exec i (s.withInertOf x) = .next (s'.withInertOf x) := by
  cases i <;> cases h <;> rfl

section
variable {s t : State} (h : SameForEngine s t)
include h

theorem SameForEngine.symm : SameForEngine t s := by
  obtain ⟨hr, hsfr, hpbr, hsreg, hdreg, hrom, hram⟩ := h
  exact ⟨hr.symm, hsfr.symm, hpbr.symm, hsreg.symm, hdreg.symm, fun n hn => (hrom n hn).symm, fun n hn => (hram n hn).symm⟩

/-- States that agree for the engine differ only in what `withInertOf` exchanges. -/
theorem SameForEngine.eq_withInertOf : t = s.withInertOf t := by
  obtain ⟨hr, hsfr, hpbr, hsreg, hdreg, -, -⟩ := h
  rw [State.withInertOf, hr, hsfr, hpbr, hsreg, hdreg]

theorem SameForEngine.afterFetch : SameForEngine s.afterFetch t.afterFetch := by
  obtain ⟨hr, hsfr, hpbr, hsreg, hdreg, hrom, hram⟩ := h
  refine ⟨?_, hsfr, hpbr, hsreg, hdreg, hrom, hram⟩
  simp only [State.afterFetch, State.setReg_r, State.reg, hr]

/-- The bus shows both states the same bytes, at the same fetch address (R45, R93). -/
theorem SameForEngine.memRead (a : BusAddr) : s.memRead a = t.memRead a := by
  obtain ⟨-, -, -, -, -, hrom, hram⟩ := h
  exact State.memRead_congr hrom hram a

theorem SameForEngine.fetchAddr : s.fetchAddr = t.fetchAddr := by
  obtain ⟨hr, -, hpbr, -⟩ := h
  simp only [State.fetchAddr, State.reg, hr, hpbr]

theorem SameForEngine.flag (x : Flag) : s.flag x = t.flag x := by
  obtain ⟨-, hsfr, -⟩ := h
  exact congrArg (testFlag · x) hsfr

theorem SameForEngine.instrBytes (op : Byte) : s.instrBytes op = t.instrBytes op := by
  simp only [State.instrBytes, State.memReadPair, h.memRead, h.fetchAddr]

/-- Both states fetch the same instruction, or the same fault. -/
theorem SameForEngine.fetchInstr : t.fetchInstr = s.fetchInstr.map fun p => (p.1, t.afterFetch) := by
  have hbytes (op : Byte) := h.afterFetch.instrBytes op
  have hflag (x : Flag) : s.afterFetch.flag x = t.afterFetch.flag x := h.afterFetch.flag x
  simp only [State.fetchInstr, State.fetchByte, State.incPc_afterFetch, h.memRead, h.fetchAddr]
  cases t.memRead t.fetchAddr with
  | error f => rfl
  | ok op =>
    simp only [hbytes, hflag]
    cases t.afterFetch.instrBytes op with
    | error f => rfl
    | ok bytes =>
      dsimp only
      cases decode (t.afterFetch.flag .alt1) (t.afterFetch.flag .alt2) bytes with
      | error e => rfl
      | ok p => rfl

/-- A Tick that answers a next state answers one from the other state too, and the two agree for the engine again. -/
theorem SameForEngine.step_next {s' : State} (hs : step s = .next s') : ∃ t', step t = .next t' ∧ SameForEngine s' t' := by
  rcases step_next_cases hs with ⟨hg, rfl⟩ | ⟨hg, i, hf, hexec⟩ <;> rw [h.flag] at hg
  · exact ⟨t, step_of_stopped hg, h⟩
  · have hft : t.fetchInstr = .ok (i, t.afterFetch) := by rw [h.fetchInstr, hf]; rfl
    have ht : step t = .next (s'.withInertOf t.afterFetch) := by
      rw [step_of_fetch hg hft, h.afterFetch.eq_withInertOf]
      exact exec_withInertOf hexec t.afterFetch
    obtain ⟨hrom, hram, -⟩ := exec_buffers hexec
    obtain ⟨-, -, -, -, -, hrom', hram'⟩ := h
    exact ⟨_, ht, rfl, rfl, rfl, rfl, rfl, hrom ▸ hrom', hram ▸ hram'⟩

/-- A Tick that faults faults the same from the other state. -/
theorem SameForEngine.step_fault {f : Fault} (hs : step s = .fault f) : step t = .fault f := by
  obtain ⟨hg, hf⟩ := step_fault_cases hs
  exact step_of_fault (h.flag .g ▸ hg) (by rw [h.fetchInstr, hf]; rfl)

end

/-- Settles O41: one simulation step in each direction, for next states and for faults. -/
theorem inertStateNeverInfluencesATick : Obligations.InertStateNeverInfluencesATick := by
  unfold Obligations.InertStateNeverInfluencesATick
  intro s t h
  refine ⟨fun s' => h.step_next, fun t' ht => ?_, fun f => ⟨h.step_fault, h.symm.step_fault⟩⟩
  obtain ⟨s', hs, hsame⟩ := h.symm.step_next ht
  exact ⟨s', hs, hsame.symm⟩

end Sys2Proof.Machine

/-! ## The Tick of an encoded instruction (30_encoding.md R70 to R83; 40_engine_step.md R92 to R96) -/

namespace Sys2Proof

/-- An opcode byte with an operand in its low nibble, as a number (R72). -/
theorem nibble_append (high low : Nibble) : high ++ low = BitVec.ofNat 8 (16 * high.toNat + low.toNat) := by
  revert high low
  decide +kernel

end Sys2Proof

namespace Sys2Proof.Machine

/-- Phase 1 and IWT's two reads fetch exactly an instruction's encoding, if its immediate lies after its opcode byte. -/
theorem State.instrBytes_of_bytesAt {s : State} {i : Instr} (h : s.bytesAt (advance s.fetchAddr 1) i.immediateBytes) :
    s.afterFetch.instrBytes i.opcode = .ok (encode i) := by
  rcases immediateBytes_cases i with ⟨himm, hbytes⟩ | ⟨himm, lo, hi, hbytes⟩ <;> rw [encode, hbytes]
  · exact State.instrBytes_short _ himm
  · rw [hbytes] at h
    obtain ⟨hlo, hhi, -⟩ := h
    simp [State.instrBytes, himm, State.memReadPair, State.fetchAddr_afterFetch, hlo, hhi]

/-- A running Tick on the encoding of an instruction that the ALT state admits executes that instruction (R92, R96). -/
theorem step_of_encoding {s : State} {i : Instr} (hg : s.sfr.getLsbD 5 = true) (hwf : i.wf = true)
    (halt : i.admitsAlt (s.sfr.getLsbD 8) (s.sfr.getLsbD 9) = true) (hbytes : s.bytesAt s.fetchAddr (encode i)) :
    step s = exec i s.afterFetch := by
  obtain ⟨hop, himm⟩ := hbytes
  have hd : decode (s.flag .alt1) (s.flag .alt2) (encode i) = .ok (i, []) := by
    have hround := decode_encode hwf halt []
    rwa [List.append_nil] at hround
  exact step_of_fetch hg (State.fetchInstr_of_bytes hop (State.instrBytes_of_bytesAt himm) hd)

/-- The same for an instruction of one byte. -/
theorem step_of_opcode {s : State} {op : Byte} (i : Instr) (hop : i.opcode = op) (himm : i.immediateBytes = [])
    (hwf : i.wf = true) (halt : i.admitsAlt (s.sfr.getLsbD 8) (s.sfr.getLsbD 9) = true) (hrun : s.runsOpcode op) :
    step s = exec i s.afterFetch := by
  obtain ⟨hg, hread⟩ := hrun
  refine step_of_encoding hg hwf halt ?_
  rw [encode, himm, hop]
  exact ⟨hread, trivial⟩

/-- Settles O13: bytes that decode with nothing left over are the encoding of what they decode to. -/
theorem stepRunsDecodedInstruction : Obligations.StepRunsDecodedInstruction := by
  unfold Obligations.StepRunsDecodedInstruction
  intro s bytes i hg hbytes hd
  obtain ⟨hwf, halt, henc⟩ := decodedBytesAreTheEncoding _ _ _ _ _ hd
  rw [henc, List.append_nil] at hbytes
  exact ⟨hwf, step_of_encoding hg hwf halt hbytes⟩

end Sys2Proof.Machine

/-! ## STOP, NOP, TO, WITH, FROM and ALT1 to ALT3 (41_control.md, 42_prefix_select.md) -/

namespace Sys2Proof.Machine

/-- What an instruction does beside its result, its own flags and the latches (R94 to R99). -/
theorem exec_frame {i : Instr} {s t : State} (h : exec i s = .next t) :
    SameRegsBut (s.writtenRegs i) s t ∧ SameSfrBut ((changedFlags i).map flagBit) s t ∧ SameControl s t ∧ SameBuffers s t :=
  ⟨exec_sameRegs h, exec_sameSfr h, exec_sameControl h, exec_sameBuffers h⟩

/-- Settles O19: STOP's one flag write clears bit 5. -/
theorem stopClearsGo : Obligations.StopClearsGo := by
  unfold Obligations.StopClearsGo
  refine ⟨fun s => ?_, fun _ => step_of_opcode .stop rfl rfl rfl rfl⟩
  have h := exec_stop_eq s
  exact ⟨_, h, writeFlag_bit _ .g false 5, exec_altFlags h, ⟨rfl, rfl⟩, exec_frame h⟩

/-- Settles O20: NOP ends with the state after phases 2 and 3. -/
theorem nopOnlyConsumesStickyState : Obligations.NopOnlyConsumesStickyState := by
  unfold Obligations.NopOnlyConsumesStickyState
  refine ⟨fun s => ?_, fun _ => step_of_opcode .nop rfl rfl rfl rfl⟩
  have h := exec_nop_eq s
  exact ⟨_, h, exec_altFlags h, s.consumeSticky_latches, exec_frame h⟩

/-- Settles O21: phases 2 and 3 leave both latches 0, then DREG is loaded. -/
theorem toSelectsDestination : Obligations.ToSelectsDestination := by
  unfold Obligations.ToSelectsDestination
  refine ⟨fun n s => ?_, fun n _ => step_of_opcode (.toR n) (nibble_append 1 (regNibble n)) rfl rfl rfl⟩
  have h := exec_toR_eq s n
  exact ⟨_, h, exec_altFlags h, s.consumeSticky_latches.setDreg n, exec_frame h⟩

/-- Settles O22: phases 2 and 3 leave both latches 0, then both are loaded. -/
theorem withSelectsBoth : Obligations.WithSelectsBoth := by
  unfold Obligations.WithSelectsBoth
  refine ⟨fun n s => ?_, fun n _ => step_of_opcode (.withR n) (nibble_append 2 (regNibble n)) rfl rfl rfl⟩
  have h := exec_withR_eq s n
  exact ⟨_, h, exec_altFlags h, (s.consumeSticky_latches.setSreg n).setDreg n, exec_frame h⟩

/-- Settles O23: phases 2 and 3 leave both latches 0, then SREG is loaded. -/
theorem fromSelectsSource : Obligations.FromSelectsSource := by
  unfold Obligations.FromSelectsSource
  refine ⟨fun n s => ?_, fun n _ => step_of_opcode (.fromR n) (nibble_append 11 (regNibble n)) rfl rfl rfl⟩
  have h := exec_fromR_eq s n
  exact ⟨_, h, exec_altFlags h, s.consumeSticky_latches.setSreg n, exec_frame h⟩

/-- Settles O24: ALT1 is written after phase 2 cleared both flags, and the latches are restored. -/
theorem alt1SetsAlt1Only : Obligations.Alt1SetsAlt1Only := by
  unfold Obligations.Alt1SetsAlt1Only
  refine ⟨fun s => ?_, fun _ => step_of_opcode .alt1 rfl rfl rfl rfl⟩
  have h := exec_alt1_eq s
  exact ⟨_, h, exec_altFlags h, s.applyPrefix_latches _, exec_frame h⟩

/-- Settles O25: ALT2 is written after phase 2 cleared both flags, and the latches are restored. -/
theorem alt2SetsAlt2Only : Obligations.Alt2SetsAlt2Only := by
  unfold Obligations.Alt2SetsAlt2Only
  refine ⟨fun s => ?_, fun _ => step_of_opcode .alt2 rfl rfl rfl rfl⟩
  have h := exec_alt2_eq s
  exact ⟨_, h, exec_altFlags h, s.applyPrefix_latches _, exec_frame h⟩

/-- Settles O26: both flags are written after phase 2, and the latches restored. -/
theorem alt3SetsBoth : Obligations.Alt3SetsBoth := by
  unfold Obligations.Alt3SetsBoth
  refine ⟨fun s => ?_, fun _ => step_of_opcode .alt3 rfl rfl rfl rfl⟩
  have h := exec_alt3_eq s
  exact ⟨_, h, exec_altFlags h, s.applyPrefix_latches _, exec_frame h⟩

end Sys2Proof.Machine

/-! ## 16-bit data from two bytes (20_memory.md R49) -/

namespace Sys2Proof

/-- A 16-bit datum as a number: low byte + 256 * high byte (R49). -/
theorem wordOfBytes_toNat (lo hi : Byte) : (wordOfBytes lo hi).toNat = lo.toNat + 256 * hi.toNat := by
  rw [wordOfBytes, BitVec.toNat_append, ← Nat.shiftLeft_add_eq_or_of_lt lo.isLt, Nat.shiftLeft_eq]
  omega

theorem wordOfBytes_eq_zero_iff (lo hi : Byte) : wordOfBytes lo hi = 0 ↔ hi = 0 ∧ lo = 0 := by
  have hword := wordOfBytes_toNat lo hi
  simp only [← BitVec.toNat_inj, BitVec.toNat_zero, BitVec.ofNat_eq_ofNat]
  omega

theorem wordOfBytes_and (lo hi lo' hi' : Byte) :
    wordOfBytes lo hi &&& wordOfBytes lo' hi' = wordOfBytes (lo &&& lo') (hi &&& hi') := BitVec.and_append

theorem wordOfBytes_shift (lo hi : Byte) : wordOfBytes lo hi >>> 8 = wordOfBytes hi 0#8 := by
  apply BitVec.eq_of_toNat_eq
  rw [BitVec.toNat_ushiftRight, Nat.shiftRight_eq_div_pow, wordOfBytes_toNat, wordOfBytes_toNat, BitVec.toNat_ofNat]
  omega

end Sys2Proof

/-! ## NOT, MERGE, AND, SEX, HIB, XOR (43_alu.md) -/

namespace Sys2Proof.Machine

/-- What an instruction that ends by writing a result, Z and S does (R98, R130). -/
theorem exec_writes_zs {i : Instr} {s : State} {v : Word} {z sg : Bool}
    (h : exec i s = .next (s.writeResult v [(.z, z), (.s, sg)])) :
    ∃ t, exec i s = .next t ∧ (t.reg s.dreg = v ∧ t.sfr.getLsbD 1 = z ∧ t.sfr.getLsbD 3 = sg) ∧
      AltFlags t (decide (i = .alt1 ∨ i = .alt3)) (decide (i = .alt2 ∨ i = .alt3)) ∧ Latches t 0 0 ∧
      SameRegsBut (s.writtenRegs i) s t ∧ SameSfrBut ((changedFlags i).map flagBit) s t ∧ SameControl s t ∧ SameBuffers s t :=
  ⟨_, h, ⟨(s.writeResult_reg v _ s.dreg).trans (if_pos rfl), s.writeResult_zs_bit v z sg 1, s.writeResult_zs_bit v z sg 3⟩,
    exec_altFlags h, s.writeResult_latches v _, exec_frame h⟩

/-- Settles O27: the complement's bit 15 is the complement of bit 15. -/
theorem notComplementsSource : Obligations.NotComplementsSource := by
  unfold Obligations.NotComplementsSource
  refine ⟨fun s => ?_, fun _ => step_of_opcode .notR rfl rfl rfl rfl⟩
  obtain ⟨t, h, ⟨hreg, hz, hs⟩, hrest⟩ := exec_writes_zs (exec_notR_eq s)
  have hsign : (notResult s.source).getLsbD 15 = !s.source.getLsbD 15 := by simp [notResult]
  exact ⟨t, h, hreg, hz, hs.trans hsign, hrest⟩

/-- Settles O29: the operands are read before phases 2 and 3, so the result is their conjunction. -/
theorem andRegisterMasksSource : Obligations.AndRegisterMasksSource := by
  unfold Obligations.AndRegisterMasksSource
  refine ⟨fun n s => ?_, fun n s hn halt1 halt2 =>
    step_of_opcode (.andR n) (nibble_append 7 (regNibble n)) rfl (bne_iff_ne.mpr hn) (by rw [halt1, halt2]; rfl)⟩
  obtain ⟨t, h, ⟨hreg, hz, hs⟩, hrest⟩ := exec_writes_zs (exec_andR_eq s n)
  exact ⟨t, h, hreg, hz, hs, hrest⟩

/-- Settles O30: the operands are read before phases 2 and 3, so the result is their exclusive or. -/
theorem xorRegisterTogglesSource : Obligations.XorRegisterTogglesSource := by
  unfold Obligations.XorRegisterTogglesSource
  refine ⟨fun n s => ?_, fun n s hn halt1 halt2 =>
    step_of_opcode (.xorR n) (nibble_append 12 (regNibble n)) rfl (bne_iff_ne.mpr hn) (by rw [halt1, halt2]; rfl)⟩
  obtain ⟨t, h, ⟨hreg, hz, hs⟩, hrest⟩ := exec_writes_zs (exec_xorR_eq s n)
  exact ⟨t, h, hreg, hz, hs, hrest⟩

/-- The 4-bit immediate as a number, and its clear bit 15 (R74 a). -/
theorem immNibble_eq_ofNat (n : Nibble) : immNibble n = BitVec.ofNat 16 n.toNat := (BitVec.ofNat_toNat 16 n).symm

theorem immNibble_bit15 (n : Nibble) : (immNibble n).getLsbD 15 = false := by
  simp [immNibble]

/-- Settles O31: the immediate's bit 15 is clear, so the result's is. -/
theorem andImmediateMasksSource : Obligations.AndImmediateMasksSource := by
  unfold Obligations.AndImmediateMasksSource
  refine ⟨fun n s => ?_, fun n s hn halt1 halt2 =>
    step_of_opcode (.andI n) (nibble_append 7 n) rfl (bne_iff_ne.mpr hn) (by rw [halt1, halt2]; rfl)⟩
  obtain ⟨t, h, ⟨hreg, hz, hs⟩, hrest⟩ := exec_writes_zs (exec_andI_eq s n)
  have hsign : (andResult s.source (immNibble n)).getLsbD 15 = false := by
    rw [andResult, BitVec.getLsbD_and, immNibble_bit15, Bool.and_false]
  rw [← immNibble_eq_ofNat]
  exact ⟨t, h, hreg, hz, hs.trans hsign, hrest⟩

/-- Settles O32: an exclusive or is 0 where its operands are equal, and the immediate's bit 15 is clear. -/
theorem xorImmediateTogglesSource : Obligations.XorImmediateTogglesSource := by
  unfold Obligations.XorImmediateTogglesSource
  refine ⟨fun n s => ?_, fun n s hn halt1 halt2 =>
    step_of_opcode (.xorI n) (nibble_append 12 n) rfl (bne_iff_ne.mpr hn) (by rw [halt1, halt2]; rfl)⟩
  obtain ⟨t, h, ⟨hreg, hz, hs⟩, hrest⟩ := exec_writes_zs (exec_xorI_eq s n)
  have hzero : (xorResult s.source (immNibble n) == 0) = (s.source == immNibble n) := by
    rw [Bool.eq_iff_iff, beq_iff_eq, beq_iff_eq]
    exact BitVec.xor_eq_zero_iff
  have hsign : (xorResult s.source (immNibble n)).getLsbD 15 = s.source.getLsbD 15 := by
    rw [xorResult, BitVec.getLsbD_xor, immNibble_bit15, Bool.xor_false]
  rw [← immNibble_eq_ofNat]
  exact ⟨t, h, hreg, hz.trans hzero, hs.trans hsign, hrest⟩

/-- SEX's result copies bits 7:0 and fills bits 15:8 with bit 7 (R135). -/
theorem sexResult_bit (v : Word) {k : Nat} (hk : k < 16) : (sexResult v).getLsbD k = v.getLsbD (min k 7) := by
  rw [sexResult, BitVec.getLsbD_signExtend, decide_eq_true hk, Bool.true_and]
  split
  · rename_i hlow
    rw [BitVec.getLsbD_extractLsb', Nat.zero_add, decide_eq_true hlow, Bool.true_and, Nat.min_eq_left (by omega)]
  · rw [Nat.min_eq_right (by omega)]
    simp [BitVec.msb_eq_getLsbD_last]

/-- SEX's result is 0 exactly where the byte it extends is (R135). -/
theorem sexResult_eq_zero (v : Word) : (sexResult v == 0) = (v.extractLsb' 0 8 == 0) := by
  have hbyte : ∀ b : Byte, (b.signExtend 16 == 0) = (b == 0) := by decide
  exact hbyte _

/-- Settles O33: both bit clauses and the sign are bits of the extension. -/
theorem sexExtendsLowByte : Obligations.SexExtendsLowByte := by
  unfold Obligations.SexExtendsLowByte
  refine ⟨fun s => ?_, fun _ => step_of_opcode .sex rfl rfl rfl rfl⟩
  obtain ⟨t, h, ⟨hreg, hz, hs⟩, hrest⟩ := exec_writes_zs (exec_sex_eq s)
  refine ⟨t, h, fun k hk => ?_, fun k hk hk16 => ?_, hz.trans (sexResult_eq_zero _), hs.trans (sexResult_bit _ (by decide)), hrest⟩
  · rw [hreg, sexResult_bit _ (by omega), Nat.min_eq_left (by omega)]; rfl
  · rw [hreg, sexResult_bit _ hk16, Nat.min_eq_right (by omega)]; rfl

/-- HIB's low byte is the source's high byte (R136). -/
theorem hibResult_byte (v : Word) : (hibResult v).extractLsb' 0 8 = v.extractLsb' 8 8 := by
  apply BitVec.eq_of_getLsbD_eq
  intro k hk
  rw [hibResult, BitVec.getLsbD_extractLsb', BitVec.getLsbD_extractLsb', BitVec.getLsbD_ushiftRight, Nat.zero_add]

/-- Settles O34: a shift by 8 is a division by 256, and the flags are those of the source's high byte. -/
theorem hibTakesHighByte : Obligations.HibTakesHighByte := by
  unfold Obligations.HibTakesHighByte
  refine ⟨fun s => ?_, fun _ => step_of_opcode .hib rfl rfl rfl rfl⟩
  obtain ⟨t, h, ⟨hreg, hz, hs⟩, hrest⟩ := exec_writes_zs (exec_hib_eq s)
  have hdiv : (hibResult s.source).toNat = s.source.toNat / 256 := by
    rw [hibResult, BitVec.toNat_ushiftRight, Nat.shiftRight_eq_div_pow]
  have hsign : (hibResult s.source).getLsbD 7 = s.source.getLsbD 15 := BitVec.getLsbD_ushiftRight s.source 8 7
  rw [hibResult_byte] at hz
  exact ⟨t, h, (congrArg BitVec.toNat hreg).trans hdiv, hz, hs.trans hsign, hrest⟩

/-- MERGE puts the two high bytes together (R132). -/
theorem mergeResult_eq (v w : Word) : mergeResult v w = wordOfBytes (w.extractLsb' 8 8) (v.extractLsb' 8 8) := by
  have hhigh : v &&& 0xFF00#16 = wordOfBytes 0#8 (v.extractLsb' 8 8) := by
    conv_lhs => rw [← wordOfBytes_split v]
    exact (wordOfBytes_and _ _ 0x00 0xFF).trans (congrArg₂ wordOfBytes BitVec.and_zero BitVec.and_allOnes)
  have hlow : w >>> 8 = wordOfBytes (w.extractLsb' 8 8) 0#8 := by
    conv_lhs => rw [← wordOfBytes_split w]
    exact wordOfBytes_shift _ _
  calc mergeResult v w = (v &&& 0xFF00#16) + w >>> 8 := rfl
    _ = _ := by rw [hhigh, hlow]; exact BitVec.append_zero_add_zero_append

/-- A MERGE mask is the same mask on both bytes; where it holds the top bits of a byte, it tests a threshold (R132). -/
theorem merge_mask_test {m low : Byte} (hm : ∀ b : Byte, (b &&& m = 0) ↔ ¬ low ≤ b) (lo hi : Byte) :
    ((wordOfBytes lo hi &&& wordOfBytes m m) != 0) = (decide (low ≤ hi) || decide (low ≤ lo)) := by
  rw [wordOfBytes_and, Bool.eq_iff_iff, bne_iff_ne, ne_eq, wordOfBytes_eq_zero_iff, hm, hm]
  simp only [Bool.or_eq_true, decide_eq_true_eq]
  tauto

/-- Settles O28: the result is the two high bytes, and each of the four masks tests a threshold of either byte. -/
theorem mergePacksHighBytes : Obligations.MergePacksHighBytes := by
  unfold Obligations.MergePacksHighBytes
  refine ⟨fun s => ?_, fun _ => step_of_opcode .merge rfl rfl rfl rfl⟩
  have h := exec_merge_eq s
  rw [mergeResult_eq] at h
  have hbit := s.writeResult_merge_bit (wordOfBytes ((s.reg 8).extractLsb' 8 8) ((s.reg 7).extractLsb' 8 8))
  refine ⟨_, h, (s.writeResult_reg _ _ s.dreg).trans (if_pos rfl), ?s, ?ov, ?c, ?z, exec_altFlags h,
    s.writeResult_latches _ _, exec_frame h⟩
  case s => exact (hbit _ _ _ _ 3).trans (merge_mask_test (m := 0x80) (by decide) _ _)
  case ov => exact (hbit _ _ _ _ 4).trans (merge_mask_test (m := 0xC0) (by decide) _ _)
  case c => exact (hbit _ _ _ _ 2).trans (merge_mask_test (m := 0xE0) (by decide) _ _)
  case z => exact (hbit _ _ _ _ 1).trans (merge_mask_test (m := 0xF0) (by decide) _ _)

end Sys2Proof.Machine

/-! ## IWT (44_iwt.md) -/

namespace Sys2Proof.Machine

/-- The byte after an address in its bank, and the one after that, are R15's next two fetch addresses (R48, R93). -/
theorem State.fetchAddr_advance (s : State) :
    advance s.fetchAddr 1 = busAddr s.pbr (s.reg 15 + 1) ∧ advance s.fetchAddr 2 = busAddr s.pbr (s.reg 15 + 2) :=
  ⟨advance_busAddr_one _ _, advance_busAddr_two _ _⟩

/-- Settles O35: R[n] is written last, after R15 passed the immediate, whose bytes are the two the fetch reads. -/
theorem iwtLoadsImmediateOrJumps : Obligations.IwtLoadsImmediateOrJumps := by
  unfold Obligations.IwtLoadsImmediateOrJumps
  refine ⟨fun n imm s => ?_, fun n lo hi s ⟨hg, hop⟩ hlo hhi => ?_⟩
  · have h := exec_iwt_eq s n imm
    refine ⟨_, h, State.reg_setReg_same _ n imm, fun hn => ?_, exec_altFlags h, ⟨rfl, rfl⟩, exec_frame h⟩
    rw [exec_pc h (fun e => hn (Option.some.inj e))]
    exact BitVec.toNat_add _ _
  · obtain ⟨hnext, hlast⟩ := s.fetchAddr_advance
    obtain ⟨hbyte0, hbyte1⟩ := extract_wordOfBytes lo hi
    refine step_of_encoding (i := .iwt n (wordOfBytes lo hi)) hg rfl rfl ?_
    rw [encode, Instr.immediateBytes, hbyte0, hbyte1]
    refine ⟨?_, ?_, ?_, trivial⟩
    · exact hop.trans (congrArg Except.ok (nibble_append 15 (regNibble n)).symm)
    · rwa [hnext]
    · rwa [advance_advance, show (1 : Int) + 1 = 2 from rfl, hlast]

end Sys2Proof.Machine

/-! ## Which Tick changes what (10_state.md section 3, 60_exceptions.md R174) -/

namespace Sys2Proof.Machine

/-- A Tick that changes a bit of SFR ran an instruction which writes a flag at that bit, on its opcode byte (R18, R92). -/
theorem step_changed_bit {s t : State} {k : Nat} (h : step s = .next t) (hk : t.sfr.getLsbD k ≠ s.sfr.getLsbD k) :
    ∃ i, exec i s.afterFetch = .next t ∧ s.runsOpcode i.opcode ∧ k ∈ (changedFlags i).map flagBit := by
  rcases step_next_cases h with ⟨-, rfl⟩ | ⟨hg, i, hf, hexec⟩
  · exact absurd rfl hk
  · obtain ⟨-, op, _, -, hop, -⟩ := State.fetchInstr_ok hf
    obtain ⟨hopcode, -⟩ := State.fetchInstr_opcode hf hop
    refine ⟨i, hexec, ⟨hg, hop.trans (congrArg Except.ok hopcode.symm)⟩, ?_⟩
    by_contra hnot
    exact hk (exec_sameSfr hexec k hnot)

/-- Settles O38: the inert bits are those of no flag that an instruction writes. -/
theorem tickKeepsInertState : Obligations.TickKeepsInertState := by
  unfold Obligations.TickKeepsInertState
  intro s t h
  obtain ⟨hrom, hram, hcache⟩ := step_buffers h
  refine ⟨step_sameControl h, sameBuffers_of_fields hrom hram hcache, fun k hk => ?_⟩
  by_contra hne
  obtain ⟨i, -, -, hmem⟩ := step_changed_bit h hne
  have hbits : ∀ i, (changedFlags i).map flagBit ⊆ [1, 2, 3, 4, 5, 8, 9] := by
    intro i
    cases i <;> simp [changedFlags, flagBit]
  exact hk (hbits i hmem)

/-- Settles O39: only STOP writes G, and it clears it. -/
theorem onlyStopClearsGo : Obligations.OnlyStopClearsGo := by
  unfold Obligations.OnlyStopClearsGo
  obtain ⟨hclears, hruns⟩ := stopClearsGo
  have honly : ∀ i, 5 ∈ (changedFlags i).map flagBit → i = .stop := by
    intro i
    cases i <;> simp [changedFlags, flagBit]
  refine ⟨fun s t h hne => ?_, fun s hrun => ?_⟩
  · obtain ⟨i, hexec, hrun, hmem⟩ := step_changed_bit h hne
    obtain rfl := honly i hmem
    obtain ⟨t', ht', hg, -⟩ := hclears s.afterFetch
    rw [hexec] at ht'
    cases ht'
    exact ⟨hrun, hg⟩
  · obtain ⟨t, ht, hg, -⟩ := hclears s.afterFetch
    exact ⟨t, (hruns s hrun).trans ht, hg⟩

/-- Only MERGE writes C and OV (R132). -/
theorem eq_merge_of_writes {i : Instr} {k : Nat} (hk : k = 2 ∨ k = 4) (h : k ∈ (changedFlags i).map flagBit) : i = .merge := by
  rcases hk with rfl | rfl <;> cases i <;> simp [changedFlags, flagBit] at h ⊢

/-- The opcodes of the instructions that write Z and S (R75, R130). -/
theorem opcode_of_writes_zs {i : Instr} {k : Nat} (hk : k = 1 ∨ k = 3) (h : k ∈ (changedFlags i).map flagBit) :
    i.opcode = 0x4F ∨ i.opcode = 0x95 ∨ (0x70 ≤ i.opcode ∧ i.opcode ≤ 0x7F) ∨ (0xC0 ≤ i.opcode ∧ i.opcode ≤ 0xCF) := by
  have hand : ∀ n : Nibble, (0x70 : Byte) ≤ 0x7#4 ++ n ∧ 0x7#4 ++ n ≤ (0x7F : Byte) := by decide
  have hxor : ∀ n : Nibble, (0xC0 : Byte) ≤ 0xC#4 ++ n ∧ 0xC#4 ++ n ≤ (0xCF : Byte) := by decide
  cases i with
  | notR | sex | merge | hib => decide
  | andR n => exact .inr (.inr (.inl (hand (regNibble n))))
  | andI n => exact .inr (.inr (.inl (hand n)))
  | xorR n => exact .inr (.inr (.inr (hxor (regNibble n))))
  | xorI n => exact .inr (.inr (.inr (hxor n)))
  | stop | nop | toR | withR | fromR | alt1 | alt2 | alt3 | iwt =>
    rcases hk with rfl | rfl <;> simp [changedFlags, flagBit] at h

/-- Settles O40: a changed bit is one that the instruction run writes. -/
theorem onlyMergeWritesCarryAndOverflow : Obligations.OnlyMergeWritesCarryAndOverflow := by
  unfold Obligations.OnlyMergeWritesCarryAndOverflow
  intro s t h
  refine ⟨fun hne => ?_, fun hne => ?_⟩
  · obtain ⟨k, hk, hne⟩ : ∃ k, (k = 2 ∨ k = 4) ∧ t.sfr.getLsbD k ≠ s.sfr.getLsbD k :=
      hne.elim (⟨2, .inl rfl, ·⟩) (⟨4, .inr rfl, ·⟩)
    obtain ⟨i, -, hrun, hmem⟩ := step_changed_bit h hne
    rwa [eq_merge_of_writes hk hmem] at hrun
  · obtain ⟨k, hk, hne⟩ : ∃ k, (k = 1 ∨ k = 3) ∧ t.sfr.getLsbD k ≠ s.sfr.getLsbD k :=
      hne.elim (⟨1, .inl rfl, ·⟩) (⟨3, .inr rfl, ·⟩)
    obtain ⟨i, -, hrun, hmem⟩ := step_changed_bit h hne
    exact ⟨i.opcode, hrun, opcode_of_writes_zs hk hmem⟩

end Sys2Proof.Machine

/-! ## The Register File's widths (10_state.md R22, R23) -/

namespace Sys2Proof.Machine

/-- A stored value that fits the register reads back (R22). -/
theorem State.readReg_storeReg_fits (s : State) {id : RegId} {v : Word} (h : v.toNat < 2 ^ regWidth id) :
    (s.storeReg id v).readReg id = v := by
  rw [State.readReg_storeReg_same, Nat.mod_eq_of_lt h, BitVec.ofNat_toNat, BitVec.setWidth_eq]

/-- A value that fits is written and reads back (R22). -/
theorem State.writeReg_fits (s : State) {id : RegId} {v : Word} (h : v.toNat < 2 ^ regWidth id) :
    ∃ t, s.writeReg id v = .ok t ∧ t.readReg id = v := by
  rcases s.writeReg_cases id v with ⟨-, hw⟩ | ⟨hnot, -⟩
  · exact ⟨_, hw, s.readReg_storeReg_fits h⟩
  · exact absurd h hnot

/-- A value that does not fit is refused (R22). -/
theorem State.writeReg_tooWide (s : State) {id : RegId} {v : Word} (h : 2 ^ regWidth id ≤ v.toNat) :
    s.writeReg id v = .error (.tooWide id v) := by
  rcases s.writeReg_cases id v with ⟨hlt, -⟩ | ⟨-, hw⟩
  · exact absurd hlt (Nat.not_lt.mpr h)
  · exact hw

/-- Settles O3: each list of registers is the list of one width. -/
theorem registerWriteChecksWidth : Obligations.RegisterWriteChecksWidth := by
  unfold Obligations.RegisterWriteChecksWidth
  refine ⟨fun s v id hid => ?wide, fun s v id hid => ?narrow, fun s t => step_sameControl⟩
  case wide =>
    have hwidth : regWidth id = 16 := by rcases hid with rfl | rfl | ⟨i, rfl⟩ <;> rfl
    exact s.writeReg_fits (by rw [hwidth]; exact v.isLt)
  case narrow =>
    have hwidth : regWidth id = 8 := by
      rcases hid with rfl | rfl | rfl | rfl | rfl | rfl | rfl | rfl <;> rfl
    have hread : (s.readReg id).toNat < 2 ^ 8 := hwidth ▸ s.readReg_lt id
    refine ⟨Nat.le_of_lt_succ hread, fun hv => s.writeReg_fits ?_, fun hv => s.writeReg_tooWide ?_⟩ <;> rw [hwidth]
    · exact Nat.lt_succ_of_le hv
    · exact Nat.succ_le_of_lt hv

/-- A register is 8 or 16 bits wide (R20, R22). -/
theorem regWidth_cases (id : RegId) : regWidth id = 8 ∨ regWidth id = 16 := by
  cases id <;> simp [regWidth]

/-- A stored value comes back modulo the register's own width (R23). -/
theorem State.readReg_storeReg_toNat (s : State) (id : RegId) (v : Word) :
    ((s.storeReg id v).readReg id).toNat = v.toNat % 2 ^ regWidth id := by
  have hv := v.isLt
  rw [State.readReg_storeReg_same, BitVec.toNat_ofNat]
  rcases regWidth_cases id with hw | hw <;> rw [hw] <;> omega

/-- Settles O4: the value stored is one up or down modulo 2^16, which the register's own width divides. -/
theorem readIncDecWrapAtOwnWidth : Obligations.ReadIncDecWrapAtOwnWidth := by
  unfold Obligations.ReadIncDecWrapAtOwnWidth
  intro s id
  have hlt := s.readReg_lt id
  have hone : (1 : Word).toNat = 1 := rfl
  refine ⟨rfl, rfl, ?inc, ?dec, fun id' hne => ⟨s.readReg_storeReg_other _ hne, s.readReg_storeReg_other _ hne⟩⟩
  case inc =>
    rw [State.readInc, State.readReg_storeReg_toNat, BitVec.toNat_add, hone]
    rcases regWidth_cases id with hw | hw <;> rw [hw] at hlt ⊢ <;> omega
  case dec =>
    rw [State.readDec, State.readReg_storeReg_toNat, BitVec.toNat_sub, hone]
    rcases regWidth_cases id with hw | hw <;> rw [hw] at hlt ⊢ <;> omega

end Sys2Proof.Machine

/-! ## The bus (20_memory.md) -/

namespace Sys2Proof.Machine

/-- The offset after an increment is the sum taken modulo 65536 (R48). -/
theorem offsetOf_advance_toNat (a : BusAddr) (d : Int) :
    ((offsetOf (advance a d)).toNat : Int) = ((offsetOf a).toNat + d) % 65536 := by
  rw [offsetOf_advance, BitVec.toNat_ofInt]
  omega

/-- Settles O7: the bank is copied, the offset is the sum. -/
theorem advanceKeepsBankWrapsOffset : Obligations.AdvanceKeepsBankWrapsOffset := by
  unfold Obligations.AdvanceKeepsBankWrapsOffset
  exact fun a d => ⟨bankOf_advance a d, offsetOf_advance_toNat a d⟩

/-- Settles O11: the two reads are made in order, and the first fault met is the answer. -/
theorem sixteenBitReadIsLittleEndian : Obligations.SixteenBitReadIsLittleEndian := by
  unfold Obligations.SixteenBitReadIsLittleEndian
  intro s a
  refine ⟨fun lo hi hlo hhi => ⟨wordOfBytes lo hi, ?_, wordOfBytes_toNat lo hi⟩, fun f hf => ?_, fun lo f hlo hf => ?_⟩
  · simp [State.memRead16, State.memReadPair, hlo, hhi]
  · simp [State.memRead16, State.memReadPair, hf]
  · simp [State.memRead16, State.memReadPair, hlo, hf]

/-- The decoder answers ROM on its two ROM cases (R42). -/
theorem determineBus_rom_iff (a : BusAddr) : determineBus a = .ok .rom ↔ isLoRom a = true ∨ isHiRom a = true := by
  constructor
  · intro h
    rcases determineBus_cases a with ⟨-, hrom⟩ | ⟨h', -⟩ | ⟨h', -⟩
    · exact hrom
    · rw [h'] at h; cases h
    · rw [h'] at h; cases h
  · rintro (h | h) <;> simp [determineBus, h]

/-- The decoder answers RAM on its RAM case (R42). -/
theorem determineBus_ram_iff (a : BusAddr) : determineBus a = .ok .ram ↔ isRam a = true := by
  refine ⟨fun h => ?_, determineBus_of_isRam⟩
  rcases determineBus_cases a with ⟨h', -⟩ | ⟨-, hram⟩ | ⟨h', -⟩
  · rw [h'] at h; cases h
  · exact hram
  · rw [h'] at h; cases h

/-- The decoder faults on every other address, with that address (R42, R161). -/
theorem determineBus_error_iff (a : BusAddr) : determineBus a = .error (.unmappedAddress a) ↔ isMapped a = false := by
  constructor
  · intro h
    rcases determineBus_cases a with ⟨h', -⟩ | ⟨h', -⟩ | ⟨-, hm⟩
    · rw [h'] at h; cases h
    · rw [h'] at h; cases h
    · exact hm
  · intro h
    simp only [isMapped, Bool.or_eq_false_iff] at h
    simp [determineBus, h]

theorem determineBus_ne_cache (a : BusAddr) : determineBus a ≠ .ok .cache := by
  rcases determineBus_cases a with ⟨h, -⟩ | ⟨h, -⟩ | ⟨h, -⟩ <;> simp [h]

/-- The unmapped addresses are those which R161 lists. -/
theorem isMapped_eq_false_iff (bank : Byte) (offset : Word) :
    isMapped (busAddr bank offset) = false ↔ unmappedRange bank offset := by
  have hbank := bank.isLt
  rw [isMapped, ← Bool.not_eq_true, Bool.or_eq_true, Bool.or_eq_true, isLoRom_iff, isHiRom_iff, isRam_iff, bankOf_busAddr,
    offsetOf_busAddr]
  simp only [unmappedRange, BitVec.le_def, BitVec.lt_def, BitVec.toNat_ofNat]
  omega

/-- Settles O8: each answer of the decoder is a range of the bank and the offset as numbers. -/
theorem busDecoderClassifiesEveryAddress : Obligations.BusDecoderClassifiesEveryAddress := by
  unfold Obligations.BusDecoderClassifiesEveryAddress
  intro bank offset
  have hbank := bank.isLt
  refine ⟨?rom, ?ram, ?unmapped, determineBus_ne_cache _⟩
  case rom =>
    rw [determineBus_rom_iff, isLoRom_iff, isHiRom_iff, bankOf_busAddr, offsetOf_busAddr]
    simp only [BitVec.le_def, BitVec.ofNat_eq_ofNat, BitVec.toNat_ofNat]
    omega
  case ram =>
    rw [determineBus_ram_iff, isRam_iff, bankOf_busAddr]
    simp only [← BitVec.toNat_inj, BitVec.ofNat_eq_ofNat, BitVec.toNat_ofNat]
    omega
  case unmapped => rw [determineBus_error_iff, isMapped_eq_false_iff]

theorem State.memRead_of_rom (s : State) {a : BusAddr} (h : determineBus a = .ok .rom) :
    s.memRead a = .ok (s.rom.read (romIndex a)) := by
  simp [State.memRead, h]

/-- A read through the LoROM window, mirrored or not (R43). -/
theorem State.memRead_loRom (s : State) {bank : Byte} {offset : Word} (hbank : bank.toNat % 128 ≤ 0x3F)
    (hoffset : 0x8000 ≤ offset.toNat) :
    s.memRead (busAddr bank offset) = .ok (s.rom.read (offset.toNat - 0x8000 + bank.toNat % 128 * 0x8000)) := by
  have hlo : isLoRom (busAddr bank offset) = true := by
    rw [isLoRom_iff, bankOf_busAddr, offsetOf_busAddr]
    exact ⟨hbank, hoffset⟩
  rw [s.memRead_of_rom ((determineBus_rom_iff _).mpr (.inl hlo)), romIndex, if_pos hlo, bank7Of_toNat, bankOf_busAddr,
    offsetOf_busAddr]

/-- A read through the HiROM window (R43). -/
theorem State.memRead_hiRom (s : State) {bank : Byte} {offset : Word} (hlow : 0x40 ≤ bank.toNat) (hhigh : bank.toNat ≤ 0x5F) :
    s.memRead (busAddr bank offset) = .ok (s.rom.read ((bank.toNat - 0x40) * 0x10000 + offset.toNat)) := by
  have hhi : isHiRom (busAddr bank offset) = true := by
    rw [isHiRom_iff, bankOf_busAddr]
    exact ⟨hlow, hhigh⟩
  obtain ⟨hdisjoint, -, -⟩ := bus_cases_disjoint (busAddr bank offset)
  have hlo : ¬ isLoRom (busAddr bank offset) = true := fun hlo => hdisjoint ⟨hlo, hhi⟩
  rw [s.memRead_of_rom ((determineBus_rom_iff _).mpr (.inr hhi)), romIndex, if_neg hlo, bankOf_busAddr, offsetOf_busAddr]

/-- Settles O9: each window's bank and offset are the quotient and the remainder of the index. -/
theorem romByteSeenThroughEveryWindow : Obligations.RomByteSeenThroughEveryWindow := by
  unfold Obligations.RomByteSeenThroughEveryWindow
  intro s n hn
  have hoffset : (BitVec.ofNat 16 (0x8000 + n % 0x8000)).toNat = 0x8000 + n % 0x8000 := by
    rw [BitVec.toNat_ofNat]; omega
  have hindex : 0x8000 + n % 0x8000 - 0x8000 + n / 0x8000 * 0x8000 = n := by omega
  refine ⟨?loRom, ?mirror, ?hiRom⟩
  case loRom =>
    have hbank : (BitVec.ofNat 8 (n / 0x8000)).toNat % 128 = n / 0x8000 := by rw [BitVec.toNat_ofNat]; omega
    rw [s.memRead_loRom (by omega) (by omega), hoffset, hbank, hindex]
  case mirror =>
    have hbank : (BitVec.ofNat 8 (0x80 + n / 0x8000)).toNat % 128 = n / 0x8000 := by rw [BitVec.toNat_ofNat]; omega
    rw [s.memRead_loRom (by omega) (by omega), hoffset, hbank, hindex]
  case hiRom =>
    have hbank : (BitVec.ofNat 8 (0x40 + n / 0x10000)).toNat = 0x40 + n / 0x10000 := by rw [BitVec.toNat_ofNat]; omega
    have hlow : (BitVec.ofNat 16 (n % 0x10000)).toNat = n % 0x10000 := by rw [BitVec.toNat_ofNat]; omega
    rw [s.memRead_hiRom (by omega) (by omega), hbank, hlow, Nat.add_sub_cancel_left, Nat.div_add_mod']

end Sys2Proof.Machine

/-! ## The faults of a Tick (60_exceptions.md) -/

namespace Sys2Proof.Machine

/-- The keys which R81 lists are exactly those that select no row (R80). -/
theorem decodeKey_eq_none_iff (alt1 alt2 : Bool) (op : Byte) (imm : Word) :
    decodeKey (mkKey alt1 alt2 op) imm = none ↔ illegalKey op alt1 := by
  rw [decodeKey, Option.map_eq_none_iff, ← Option.isNone_iff_eq_none, illegalKey]
  revert op
  cases alt1 <;> cases alt2 <;> decide +kernel

/-- No long opcode byte is illegal under any ALT state (R77, R79). -/
theorem hasImmediate_of_illegalKey {op : Byte} {alt1 : Bool} (h : illegalKey op alt1) : hasImmediate op = false := by
  by_contra himm
  have hnone := (decodeKey_eq_none_iff alt1 false op 0).mpr h
  rw [decodeKey_long _ _ (Bool.eq_true_of_not_eq_false himm)] at hnone
  cases hnone

/-- A byte that reads is at a mapped address (R45). -/
theorem State.isMapped_of_memRead {s : State} {a : BusAddr} {b : Byte} (h : s.memRead a = .ok b) : isMapped a = true := by
  by_contra hm
  rw [s.memRead_unmapped (Bool.eq_false_iff.mpr hm)] at h
  cases h

/-- A fault met in reading the immediate is the fetch's (R164). -/
theorem State.fetchInstr_of_immediate_fault {s : State} {op : Byte} {f : Fault} (hop : s.memRead s.fetchAddr = .ok op)
    (hf : s.afterFetch.instrBytes op = .error f) : s.fetchInstr = .error f := by
  simp [State.fetchInstr, State.fetchByte, hop, hf]

@[simp] theorem State.afterFetch_flag (s : State) (x : Flag) : s.afterFetch.flag x = s.flag x := rfl

/-- An opcode byte whose key selects no row makes the fetch an UnimplementedInstruction (R80, R162). -/
theorem State.fetchInstr_illegal {s : State} {op : Byte} (hop : s.memRead s.fetchAddr = .ok op)
    (hkey : illegalKey op (s.flag .alt1)) :
    s.fetchInstr = .error (.unimplementedInstruction op (s.flag .alt1) (s.flag .alt2)) := by
  have himm : hasImmediate op = false := hasImmediate_of_illegalKey hkey
  have hd : decode (s.flag .alt1) (s.flag .alt2) [op] = .error (.illegal op (s.flag .alt1) (s.flag .alt2)) := by
    rw [decode_short _ _ himm, (decodeKey_eq_none_iff _ _ _ _).mpr hkey]
    rfl
  simp [State.fetchInstr, State.fetchByte, hop, State.instrBytes_short _ himm, hd]

/-- A short opcode byte whose key is legal is fetched as an instruction (R75, R92). -/
theorem State.fetchInstr_short {s : State} {op : Byte} (hop : s.memRead s.fetchAddr = .ok op) (himm : hasImmediate op = false)
    (hkey : ¬ illegalKey op (s.flag .alt1)) : ∃ i, s.fetchInstr = .ok (i, s.afterFetch) := by
  rw [← decodeKey_eq_none_iff _ (s.flag .alt2) op 0] at hkey
  obtain ⟨i, hi⟩ := Option.ne_none_iff_exists'.mp hkey
  refine ⟨i, State.fetchInstr_of_bytes (rest := []) hop (State.instrBytes_short _ himm) ?_⟩
  rw [decode_short _ _ himm, hi]
  rfl

/-- A long opcode byte is fetched with its immediate, or with the first fault met in reading that (R79, R150, R164). -/
theorem State.fetchInstr_long {s : State} {op : Byte} (hop : s.memRead s.fetchAddr = .ok op) (himm : hasImmediate op = true) :
    (isMapped (advance s.fetchAddr 1) = true ∧ isMapped (advance s.fetchAddr 2) = true ∧
      ∃ i, s.fetchInstr = .ok (i, s.afterFetch)) ∨
    (isMapped (advance s.fetchAddr 1) = false ∧ s.fetchInstr = .error (.unmappedAddress (advance s.fetchAddr 1))) ∨
    (isMapped (advance s.fetchAddr 1) = true ∧ isMapped (advance s.fetchAddr 2) = false ∧
      s.fetchInstr = .error (.unmappedAddress (advance s.fetchAddr 2))) := by
  have hcases := s.afterFetch.instrBytes_long himm
  simp only [State.afterFetch_memRead, State.fetchAddr_afterFetch, advance_advance, Int.reduceAdd] at hcases
  rcases hcases with ⟨lo, hi, hlo, hhi, hbytes⟩ | ⟨hlo, hbytes⟩ | ⟨lo, hlo, hhi, hbytes⟩
  · have hd : decode (s.flag .alt1) (s.flag .alt2) [op, lo, hi] =
        .ok (.iwt (nibbleReg (op.extractLsb' 0 4)) (wordOfBytes lo hi), []) := by
      rw [decode_long _ _ himm, decodeKey_long _ _ himm]
      rfl
    exact .inl ⟨State.isMapped_of_memRead hlo, State.isMapped_of_memRead hhi, _, State.fetchInstr_of_bytes hop hbytes hd⟩
  · obtain ⟨-, hm⟩ := State.memRead_error hlo
    exact .inr (.inl ⟨hm, State.fetchInstr_of_immediate_fault hop hbytes⟩)
  · obtain ⟨-, hm⟩ := State.memRead_error hhi
    exact .inr (.inr ⟨State.isMapped_of_memRead hlo, hm, State.fetchInstr_of_immediate_fault hop hbytes⟩)

/-- Everything a fetch that faults can answer: which address, or which key (R160 to R164). -/
theorem State.fetchInstr_fault_cases {s : State} {f : Fault} (h : s.fetchInstr = .error f) :
    (∃ a, f = .unmappedAddress a ∧ isMapped a = false ∧
      (a = s.fetchAddr ∨ a = advance s.fetchAddr 1 ∨ a = advance s.fetchAddr 2)) ∨
    (∃ op, s.memRead s.fetchAddr = .ok op ∧ illegalKey op (s.flag .alt1) ∧
      f = .unimplementedInstruction op (s.flag .alt1) (s.flag .alt2)) := by
  rcases s.fetchByte_cases with ⟨op, hop, -⟩ | ⟨hop, -⟩
  · cases himm : hasImmediate op
    · by_cases hkey : illegalKey op (s.flag .alt1)
      · rw [State.fetchInstr_illegal hop hkey] at h
        cases h
        exact .inr ⟨op, hop, hkey, rfl⟩
      · obtain ⟨i, hi⟩ := State.fetchInstr_short hop himm hkey
        rw [hi] at h
        cases h
    · rcases State.fetchInstr_long hop himm with ⟨-, -, i, hi⟩ | ⟨hm, hf⟩ | ⟨-, hm, hf⟩
      · rw [hi] at h
        cases h
      · rw [hf] at h
        cases h
        exact .inl ⟨_, rfl, hm, .inr (.inl rfl)⟩
      · rw [hf] at h
        cases h
        exact .inl ⟨_, rfl, hm, .inr (.inr rfl)⟩
  · obtain ⟨-, hm⟩ := State.memRead_error hop
    rw [State.fetchInstr_unmapped hm] at h
    cases h
    exact .inl ⟨_, rfl, hm, .inl rfl⟩

/-- Settles O15: an unmapped fetch address faults before the decode, a mapped one reads. -/
theorem unmappedOpcodeFetchFaults : Obligations.UnmappedOpcodeFetchFaults := by
  unfold Obligations.UnmappedOpcodeFetchFaults
  intro s hg
  refine ⟨fun h => ?_, fun h => ?_⟩
  · exact step_of_fault hg (State.fetchInstr_unmapped ((isMapped_eq_false_iff _ _).mpr h))
  · rw [← isMapped_eq_false_iff, Bool.not_eq_false] at h
    obtain ⟨op, hop⟩ := s.memRead_mapped h
    exact ⟨op, hg, hop⟩

/-- A Tick whose fetch answers an instruction answers a next state. -/
theorem step_completes {s : State} {i : Instr} (hg : s.flag .g = true) (hf : s.fetchInstr = .ok (i, s.afterFetch)) :
    ∃ t, step s = .next t := by
  rw [step_of_fetch hg hf]
  exact exec_completes i s.afterFetch

/-- Settles O16: the fetch reads the low byte of the immediate first, then the high byte. -/
theorem immediateFetchFaultsLowByteFirst : Obligations.ImmediateFetchFaultsLowByteFirst := by
  unfold Obligations.ImmediateFetchFaultsLowByteFirst
  rintro s op ⟨hg, hop⟩ hlong
  have hcases := State.fetchInstr_long hop ((hasImmediate_iff op).mpr hlong)
  obtain ⟨hnext, hlast⟩ := s.fetchAddr_advance
  rw [hnext, hlast] at hcases
  simp only [← isMapped_eq_false_iff]
  rcases hcases with ⟨hm1, hm2, i, hf⟩ | ⟨hm1, hf⟩ | ⟨hm1, hm2, hf⟩
  · exact ⟨fun h => (nomatch hm1.symm.trans h), fun _ h => (nomatch hm2.symm.trans h), fun _ _ => step_completes hg hf⟩
  · exact ⟨fun _ => step_of_fault hg hf, fun h => absurd hm1 h, fun h => absurd hm1 h⟩
  · exact ⟨fun h => (nomatch hm1.symm.trans h), fun _ _ => step_of_fault hg hf, fun _ h => absurd hm2 h⟩

/-- Settles O17: the listed keys select no row, and a Tick raises this fault only from such a key. -/
theorem illegalKeyFaults : Obligations.IllegalKeyFaults := by
  unfold Obligations.IllegalKeyFaults
  rintro s op ⟨hg, hop⟩
  refine ⟨fun hkey => step_of_fault hg (State.fetchInstr_illegal hop hkey), fun hkey o a b hstep => ?_⟩
  obtain ⟨-, hf⟩ := step_fault_cases hstep
  rcases State.fetchInstr_fault_cases hf with ⟨_, hne, -⟩ | ⟨op', hop', hkey', -⟩
  · cases hne
  · rw [hop] at hop'
    cases hop'
    exact hkey hkey'

/-- Settles O18: no meaning faults or is refused, so the outcomes are those of the fetch. -/
theorem everyTickHasOneOfThreeOutcomes : Obligations.EveryTickHasOneOfThreeOutcomes := by
  unfold Obligations.EveryTickHasOneOfThreeOutcomes
  intro s
  cases hg : s.flag .g
  · exact .inl ⟨s, step_of_stopped hg⟩
  rcases hf : s.fetchInstr with f | ⟨i, s1⟩
  · rcases State.fetchInstr_fault_cases hf with ⟨a, rfl, hm, ha⟩ | ⟨op, hop, -, rfl⟩
    · rw [← busAddr_eta a, isMapped_eq_false_iff] at hm
      obtain ⟨hnext, hlast⟩ := s.fetchAddr_advance
      rw [hnext, hlast] at ha
      exact .inr (.inl ⟨hg, a, step_of_fault hg hf, hm, ha⟩)
    · exact .inr (.inr ⟨op, ⟨hg, hop⟩, step_of_fault hg hf⟩)
  · obtain ⟨rfl, -⟩ := State.fetchInstr_ok hf
    exact .inl (step_completes hg hf)

end Sys2Proof.Machine

/-! ## Reset and construction (10_state.md R30; 70_reset_and_hazards.md R190 to R192) -/

namespace Sys2Proof.Machine

/-- Construction answers the reset state with the image in ROM, exactly where the image fits (R192). -/
theorem construct_cases (image : List Byte) :
    (image.length ≤ 0x200000 ∧ construct image = some { State.reset with rom := Memory.ofBytes 0 image }) ∨
    (0x200000 < image.length ∧ construct image = none) := by
  by_cases h : image.length ≤ Config.romSize
  · exact .inl ⟨h, by simp [construct, h]⟩
  · exact .inr ⟨Nat.lt_of_not_le h, by simp [construct, h]⟩

/-- Every register is 0 after reset (R30). -/
theorem State.readReg_reset (id : RegId) : State.reset.readReg id = 0 := by
  cases id with
  | gpr i => revert i; decide
  | sfr | brambr | pbr | rombr | cfgr | scbr | clsr | scmr | rambr | cbr => rfl

/-- Settles O1: every field of reset is 0 or the empty list, and an unlisted byte is the fill. -/
theorem resetIsZeroedStoppedAndFilled : Obligations.ResetIsZeroedStoppedAndFilled := by
  unfold Obligations.ResetIsZeroedStoppedAndFilled
  exact ⟨State.readReg_reset, ⟨rfl, rfl⟩, rfl, rfl, State.memRead_unmapped _ rfl, fun n => ⟨rfl, rfl, rfl⟩⟩

theorem buffersOk_constructed {image : List Byte} (h : image.length ≤ 0x200000) :
    BuffersOk { State.reset with rom := Memory.ofBytes 0 image } :=
  ⟨⟨Memory.wf_ofBytes image, Memory.within_ofBytes (by rw [Nat.zero_add]; exact h)⟩, ⟨rfl, rfl⟩, ⟨rfl, rfl⟩⟩

/-- Settles O2: the image's bytes are read back from ROM, and all else is reset's. -/
theorem constructCopiesImageOverFill : Obligations.ConstructCopiesImageOverFill := by
  unfold Obligations.ConstructCopiesImageOverFill
  intro image
  rcases construct_cases image with ⟨hfits, hc⟩ | ⟨hlong, hc⟩
  · refine ⟨fun _ => ⟨_, hc, fun n hn => ?_, fun n hn => ?_, fun _ => rfl, fun _ => rfl, fun id => ?_, ⟨rfl, rfl⟩, rfl,
      buffersOk_constructed hfits⟩, fun h => absurd hfits (Nat.not_le.mpr h)⟩
    · simp [Memory.read_ofBytes, hn]
    · simp [Memory.read_ofBytes, hn, Memory.unlisted, Config.fill]
    · exact State.readReg_reset id
  · exact ⟨fun h => absurd h (Nat.not_le.mpr hlong), fun _ => hc⟩

/-- Settles O43: reset's buffers are empty, construction's ROM is canonical, and both latches are 0. -/
theorem resetMeetsInvariant : Obligations.ResetMeetsInvariant := by
  unfold Obligations.ResetMeetsInvariant
  refine ⟨⟨⟨⟨rfl, rfl⟩, ⟨rfl, rfl⟩, ⟨rfl, rfl⟩⟩, .inl rfl⟩, fun image s hs => ?_⟩
  rcases construct_cases image with ⟨hfits, hc⟩ | ⟨-, hc⟩ <;> rw [hc] at hs <;> cases hs
  exact ⟨buffersOk_constructed hfits, .inl rfl⟩

end Sys2Proof.Machine

/-! ## The host driver (70_reset_and_hazards.md R193 to R198) -/

namespace Sys2Proof.Machine

/-- Settles O48: the host writes one flag, which is the Tick's only condition. -/
theorem hostStartsAndStopsByG : Obligations.HostStartsAndStopsByG := by
  unfold Obligations.HostStartsAndStopsByG
  intro s
  have hg (b : Bool) : (s.writeFlags [(.g, b)]).flag .g = b := writeFlag_bit s.sfr .g b 5
  have hrest (b : Bool) : SameRegsBut [] s (s.writeFlags [(.g, b)]) ∧ SameSfrBut [5] s (s.writeFlags [(.g, b)]) ∧
      Latches (s.writeFlags [(.g, b)]) s.sreg s.dreg ∧ SameControl s (s.writeFlags [(.g, b)]) ∧
      SameBuffers s (s.writeFlags [(.g, b)]) :=
    ⟨fun _ _ => rfl, fun k hk => (writeFlag_bit s.sfr .g b k).trans (if_neg (fun e => hk (List.mem_singleton.mpr e))), ⟨rfl, rfl⟩,
      s.writeFlags_control _, sameBuffers_of_fields rfl rfl rfl⟩
  exact ⟨⟨_, rfl, hg true, if_pos (hg true), rfl, hrest true⟩, ⟨_, rfl, hg false, step_of_stopped (hg false), hrest false⟩⟩

/-- Settles O49: a register write stores into that register alone, a flag write into SFR alone. -/
theorem hostRegisterAccessHasNoSideEffect : Obligations.HostRegisterAccessHasNoSideEffect := by
  unfold Obligations.HostRegisterAccessHasNoSideEffect
  refine ⟨fun s id v => ⟨fun hfits => ?_, fun hwide => ?_⟩, fun s l => ?_⟩
  · have hw : s.writeReg id v = .ok (s.storeReg id v) := if_pos hfits
    obtain ⟨hsreg, hdreg, hcycles, hbuffers⟩ := s.storeReg_rest id v
    exact ⟨s.storeReg id v, by simp [drive, driverWrite, hw], s.readReg_storeReg_fits hfits,
      fun id' hne => s.readReg_storeReg_other v hne, ⟨hsreg, hdreg⟩, hcycles, hbuffers⟩
  · simp [drive, driverWrite, s.writeReg_tooWide hwide]
  · refine ⟨_, rfl, rfl, fun id' hne => ?_, ⟨rfl, rfl⟩, rfl, rfl, rfl, rfl⟩
    cases id' with
    | sfr => exact absurd rfl hne
    | gpr | brambr | pbr | rombr | cfgr | scbr | clsr | scmr | rambr | cbr => rfl

/-- A Tick as a driver action completes exactly where it answers a next state. -/
theorem driverTick_done {s t : State} (h : driverTick s = .done t) : step s = .next t := by
  unfold driverTick at h
  split at h <;> cases h
  assumption

/-- Settles O50: a Tick writes no buffer, and a register or flag write only the Register File. -/
theorem onlyRestoreChangesBuffers : Obligations.OnlyRestoreChangesBuffers := by
  unfold Obligations.OnlyRestoreChangesBuffers
  refine ⟨fun _ => rfl, fun _ _ _ => rfl, fun s t a h hne => ?_⟩
  cases a with
  | tick => exact step_buffers (driverTick_done h)
  | writeReg id v =>
    rw [drive, driverWrite] at h
    rcases s.writeReg_cases id v with ⟨-, hw⟩ | ⟨-, hw⟩ <;> rw [hw] at h <;> cases h
    obtain ⟨-, -, -, hbuffers⟩ := s.storeReg_rest id v
    exact hbuffers
  | writeFlags l =>
    cases h
    exact ⟨rfl, rfl, rfl⟩
  | restore snap => exact absurd rfl (hne snap)

/-- A launch sets the fetch address (R198). -/
theorem State.fetchAddr_launch (s : State) (bank : Byte) (offset : Word) :
    (s.launch bank offset).fetchAddr = busAddr bank offset :=
  congrArg (busAddr bank) (State.reg_setReg_same { s with pbr := bank } 15 offset)

/-- The first byte of an image is read at 00:8000 (R43, R192). -/
theorem State.memRead_constructed (b : Byte) (image : List Byte) :
    ({ State.reset with rom := Memory.ofBytes 0 (b :: image) } : State).memRead (busAddr 0 0x8000) = .ok b := by
  have hindex : (0x8000 : Word).toNat - 0x8000 + (0 : Byte).toNat % 128 * 0x8000 = 0 := by decide
  rw [State.memRead_loRom _ (by decide) (by decide), hindex, Memory.read_ofBytes]
  rfl

/-- Settles O51: 00:0000 is unmapped; 00:8000 is ROM index 0, where the image's first byte is. -/
theorem launchMakesTheFirstTickFetch : Obligations.LaunchMakesTheFirstTickFetch := by
  unfold Obligations.LaunchMakesTheFirstTickFetch
  refine ⟨step_of_fault rfl (State.fetchInstr_unmapped rfl), fun b image s hs => ⟨?running, ?byte⟩⟩
  case running => exact writeFlag_bit s.sfr .g true 5
  case byte =>
    rcases construct_cases (b :: image) with ⟨-, hc⟩ | ⟨-, hc⟩ <;> rw [hc] at hs <;> cases hs
    rw [State.fetchAddr_launch]
    exact State.memRead_constructed b image

end Sys2Proof.Machine

/-! ## Placing a table word where the next Tick fetches (70_reset_and_hazards.md R198; logs 1, 2, 11) -/

namespace Sys2Proof.Machine

/-- The first of the bytes that lie from an address on lie there too. -/
theorem State.bytesAt_of_append {s : State} {l m : List Byte} {a : BusAddr} (h : s.bytesAt a (l ++ m)) : s.bytesAt a l := by
  induction l generalizing a with
  | nil => trivial
  | cons b l ih =>
    obtain ⟨hb, hl⟩ := h
    exact ⟨hb, ih hl⟩

/-- Three bytes can be placed from the fetch address on, wherever it was (R198). -/
theorem State.moveToMapped_window (s : State) : s.moveToMapped.fetchWindowMapped = true := by
  unfold State.moveToMapped
  split
  · assumption
  · have haddr : (({ s with pbr := 0 } : State).setReg 15 0x8000).fetchAddr = busAddr 0 0x8000 :=
      congrArg (busAddr 0) (State.reg_setReg_same _ 15 0x8000)
    rw [State.fetchWindowMapped, haddr]
    decide

/-- Moving the fetch address writes no buffer. -/
theorem State.moveToMapped_buffersOk {s : State} (h : BuffersOk s) : BuffersOk s.moveToMapped := by
  unfold State.moveToMapped
  split <;> exact h

/-- Placing a byte keeps the canonical form of all three buffers (log 11). -/
theorem State.placeByte_buffersOk {s : State} (h : BuffersOk s) (a : BusAddr) (b : Byte) : BuffersOk (s.placeByte a b) := by
  obtain ⟨hrom, hram, hcache⟩ := h
  obtain ⟨hrom', hram'⟩ := State.placeByte_reachableOk ⟨hrom, hram⟩ a b
  obtain ⟨-, -, -, -, -, hsame⟩ := s.placeByte_rest a b
  exact ⟨hrom', hram', by rwa [hsame]⟩

theorem State.placeAtFetch_buffersOk {s : State} (h : BuffersOk s) (b0 b1 b2 : Byte) : BuffersOk (s.placeAtFetch b0 b1 b2) :=
  State.placeByte_buffersOk (State.placeByte_buffersOk (State.placeByte_buffersOk h _ _) _ _) _ _

theorem State.fetchAddr_placeByte (s : State) (a : BusAddr) (b : Byte) : (s.placeByte a b).fetchAddr = s.fetchAddr := by
  obtain ⟨hr, -, hpbr, -⟩ := s.placeByte_rest a b
  simp only [State.fetchAddr, State.reg, hr, hpbr]

theorem State.fetchAddr_placeAtFetch (s : State) (b0 b1 b2 : Byte) : (s.placeAtFetch b0 b1 b2).fetchAddr = s.fetchAddr := by
  simp only [State.placeAtFetch, State.fetchAddr_placeByte]

theorem BuffersOk.reachable {s : State} (h : BuffersOk s) : s.reachableOk := by
  obtain ⟨hrom, hram, -⟩ := h
  exact ⟨hrom, hram⟩

/-- A byte placed elsewhere in the bank leaves this one alone. -/
theorem State.memRead_placeByte_advance {s : State} (h : BuffersOk s) (a : BusAddr) {d e : Int} (hne : (d - e) % 65536 ≠ 0)
    (b : Byte) : (s.placeByte (advance a d) b).memRead (advance a e) = s.memRead (advance a e) := by
  refine State.memRead_placeByte_other h.reachable (by rw [bankOf_advance, bankOf_advance]) (fun heq => ?_) b
  have hd := offsetOf_advance_toNat a d
  have he := offsetOf_advance_toNat a e
  rw [heq] at he
  omega

theorem advance_zero (a : BusAddr) : advance a 0 = a := by
  have hoffset : BitVec.ofInt 16 ((offsetOf a).toNat + 0) = offsetOf a := by
    apply BitVec.eq_of_toNat_eq
    rw [BitVec.toNat_ofInt]
    omega
  rw [advance, hoffset, busAddr_eta]

/-- The three bytes placed are the bytes that lie there (log 1). -/
theorem State.bytesAt_placeAtFetch {s : State} (h : BuffersOk s) (hwindow : s.fetchWindowMapped = true) (b0 b1 b2 : Byte) :
    (s.placeAtFetch b0 b1 b2).bytesAt s.fetchAddr [b0, b1, b2] := by
  simp only [State.fetchWindowMapped, Bool.and_eq_true] at hwindow
  obtain ⟨⟨hm0, hm1⟩, hm2⟩ := hwindow
  have h1 : BuffersOk (s.placeByte s.fetchAddr b0) := State.placeByte_buffersOk h _ _
  have h2 : BuffersOk ((s.placeByte s.fetchAddr b0).placeByte (advance s.fetchAddr 1) b1) := State.placeByte_buffersOk h1 _ _
  have hbyte0 : (s.placeAtFetch b0 b1 b2).memRead (advance s.fetchAddr 0) = .ok b0 := by
    rw [State.placeAtFetch, State.memRead_placeByte_advance h2 _ (by decide), State.memRead_placeByte_advance h1 _ (by decide),
      advance_zero, State.memRead_placeByte_same h.reachable hm0]
  have hbyte1 : (s.placeAtFetch b0 b1 b2).memRead (advance s.fetchAddr 1) = .ok b1 := by
    rw [State.placeAtFetch, State.memRead_placeByte_advance h2 _ (by decide), State.memRead_placeByte_same h1.reachable hm1]
  have hbyte2 : (s.placeAtFetch b0 b1 b2).memRead (advance s.fetchAddr 2) = .ok b2 :=
    State.memRead_placeByte_same h2.reachable hm2 b2
  rw [advance_zero] at hbyte0
  exact ⟨hbyte0, hbyte1, by rwa [advance_advance], trivial⟩

/-- After the placing the three bytes lie at the fetch address, which may have moved (R198). -/
theorem State.bytesAt_placeInstr {s : State} (h : BuffersOk s) (alt1 alt2 : Bool) (b0 b1 b2 : Byte) :
    (s.placeInstr alt1 alt2 b0 b1 b2).bytesAt (s.placeInstr alt1 alt2 b0 b1 b2).fetchAddr [b0, b1, b2] := by
  have haddr : (s.placeInstr alt1 alt2 b0 b1 b2).fetchAddr = s.moveToMapped.fetchAddr :=
    State.fetchAddr_placeAtFetch s.moveToMapped b0 b1 b2
  rw [haddr]
  exact State.bytesAt_placeAtFetch (State.moveToMapped_buffersOk h) s.moveToMapped_window b0 b1 b2

/-- A placed encoding runs in the next Tick, under the ALT flags placed with it (R194, R198; log 1). -/
theorem State.placeInstr_runs {s : State} (h : BuffersOk s) {alt1 alt2 : Bool} {b0 b1 b2 : Byte} {i : Instr} {rest : List Byte}
    (hd : decode alt1 alt2 [b0, b1, b2] = .ok (i, rest)) :
    (s.placeInstr alt1 alt2 b0 b1 b2).sfr.getLsbD 5 = true ∧ BuffersOk (s.placeInstr alt1 alt2 b0 b1 b2) ∧
    step (s.placeInstr alt1 alt2 b0 b1 b2) = exec i (s.placeInstr alt1 alt2 b0 b1 b2).afterFetch := by
  obtain ⟨hwf, halt, henc⟩ := decodedBytesAreTheEncoding _ _ _ _ _ hd
  have hg : (s.placeInstr alt1 alt2 b0 b1 b2).sfr.getLsbD 5 = true := writeFlag_bit _ .g true 5
  have halt1 : (s.placeInstr alt1 alt2 b0 b1 b2).sfr.getLsbD 8 = alt1 :=
    (writeFlag_bit _ .g true 8).trans ((writeFlag_bit _ .alt2 alt2 8).trans (writeFlag_bit _ .alt1 alt1 8))
  have halt2 : (s.placeInstr alt1 alt2 b0 b1 b2).sfr.getLsbD 9 = alt2 :=
    (writeFlag_bit _ .g true 9).trans (writeFlag_bit _ .alt2 alt2 9)
  have hbytes := State.bytesAt_placeInstr h alt1 alt2 b0 b1 b2
  rw [henc] at hbytes
  exact ⟨hg, State.placeAtFetch_buffersOk (State.moveToMapped_buffersOk h) b0 b1 b2,
    step_of_encoding hg hwf (by rw [halt1, halt2]; exact halt) (State.bytesAt_of_append hbytes)⟩

/-- A table word that decodes stands for bytes that decode (log 2). -/
theorem decode_of_decodeTableWord {nbits w : Nat} {i : Instr} (h : decodeTableWord nbits w = some i) :
    ∃ rest, decode (tableAlt1 w) (tableAlt2 w) (tableBytes nbits w) = .ok (i, rest) := by
  unfold decodeTableWord at h
  split at h <;> cases h
  exact ⟨_, by assumption⟩

/-- Settles O47: a table word is three bytes and two ALT flags, placed at a mapped fetch address. -/
theorem placedInstructionRunsNext : Obligations.PlacedInstructionRunsNext := by
  unfold Obligations.PlacedInstructionRunsNext
  intro s nbits w i hs hw
  obtain ⟨rest, hd⟩ := decode_of_decodeTableWord hw
  exact State.placeInstr_runs hs hd

end Sys2Proof.Machine
